-- ==== Sys2Proof/Word.lean ====
section
/-! DEFINITION. The word types of the ST7628 bit-bang frame encoder.

The block's data are bytes: every frame value, command byte, argument byte, delay byte and window
coordinate is 8 bits, and a colour is 16 bits (`00_scope.md` section 4). -/

namespace Sys2Proof

/-- A byte: a command, an argument, a coordinate, a byte of the ROM (`00_scope.md` section 5). -/
abbrev Byte := BitVec 8

/-- A 16-bit RGB565 colour (`00_scope.md` section 6, Color565). -/
abbrev Color := BitVec 16

/-- The length of a wait in millisecond ticks: a natural number from 0 to 500 (rule R103). -/
abbrev WaitMs := Fin 501

end Sys2Proof
end

