-- ==== Sys2Proof/Syntax.lean ====
section
/-! DEFINITION. The instructions: the six host requests and the two init-table records of
`spec/opcode_table.json` (`30_encoding.md` rules R73 and R78). -/

namespace Sys2Proof

/-- One constructor per row of the opcode table. -/
inductive Instr where
  /-- WRCMD v: write one command frame (rule R136). -/
  | wrcmd (v : Byte)
  /-- WRDATA v: write one data frame (rule R137). -/
  | wrdata (v : Byte)
  /-- WRPIX c: write one 16-bit colour as two data frames (rule R140). -/
  | wrpix (c : Color)
  /-- SETWIN x0, y0, x1, y1: program the addressing window (rule R201). -/
  | setwin (x0 y0 x1 y1 : Byte)
  /-- SETROT r: set the orientation (rule R206). -/
  | setrot (r : Byte)
  /-- INIT: reset the controller and run the init table (rule R160). -/
  | init
  /-- INITREC cmd, a1 .. an: a table record without a delay (rule R165). -/
  | initrec (cmd : Byte) (args : List Byte)
  /-- INITREC_D cmd, a1 .. an, d: a table record with a delay byte (rule R166). -/
  | initrecD (cmd : Byte) (args : List Byte) (d : Byte)
  deriving DecidableEq, Repr

/-- A table record as the interpreter reads it: command, arguments, and the delay byte where the delay
flag is set (rule R73). -/
structure Record where
  cmd : Byte
  args : List Byte
  delay : Option Byte
  deriving DecidableEq, Repr

/-- The instruction a record is: INITREC without a delay byte, INITREC_D with one. -/
def Record.toInstr (r : Record) : Instr :=
  match r.delay with
  | none => .initrec r.cmd r.args
  | some d => .initrecD r.cmd r.args d

/-- Whether the instruction is a host request (rule R78), and not a table record. -/
def Instr.isRequest : Instr → Bool
  | .wrcmd _ | .wrdata _ | .wrpix _ | .setwin _ _ _ _ | .setrot _ | .init => true
  | .initrec _ _ | .initrecD _ _ _ => false

end Sys2Proof
end

