-- ==== Sys2Proof/WellFormed.lean ====
section
/-! DEFINITION. Which instructions have an encoding (`30_encoding.md`). -/

namespace Sys2Proof

/-- Every operand of a request is a whole byte or colour, so every request is well-formed (rule R80).
A record carries at most 127 arguments, because its count is `argc[6:0]` (rule R74). -/
def Instr.wf : Instr → Bool
  | .wrcmd _ => true
  | .wrdata _ => true
  | .wrpix _ => true
  | .setwin _ _ _ _ => true
  | .setrot _ => true
  | .init => true
  | .initrec _ args => args.length ≤ 127
  | .initrecD _ args _ => args.length ≤ 127

end Sys2Proof
end

