-- ==== Sys2Proof/Decode.lean ====
section
/-! DEFINITION. The decoder and the encoder of requests and of table records (`30_encoding.md`).

Requests and records are two encodings of the same block: a request's first byte is an opcode, a
record's first byte is a controller command. A request is read from the request port by
`decodeRequest`, a record from the ROM by `decodeRecord`. -/

namespace Sys2Proof

/-- Why a byte string is not an instruction. -/
inductive DecodeError where
  /-- The first byte is no opcode: 0x00 or 0x07 to 0xFF (rule R81). -/
  | undefinedOpcode (b : Byte)
  /-- The string ends before the instruction does (rule R78: a request is offered whole). -/
  | truncated
  deriving DecidableEq, Repr

/-- `F = argc[7]`, the delay flag of a record (rule R74). -/
def argcFlag (argc : Byte) : Bool := argc.getLsbD 7

/-- `n = argc[6:0]`, the number of arguments of a record (rule R74). -/
def argcCount (argc : Byte) : Nat := (argc &&& 0x7F).toNat

/-- The argument-count byte with flag `f` and count `n` (rule R74). -/
def argcByte (f : Bool) (n : Nat) : Byte :=
  (if f then 0x80 else 0x00) ||| BitVec.ofNat 8 n

/-- `RecLen(argc) = 2 + argc[6:0] + argc[7]` (rule R76). -/
def recLen (argc : Byte) : Nat := 2 + argcCount argc + (if argcFlag argc then 1 else 0)

/-- The length of a request in bytes, from its first byte alone (rule R78, rule R84). An undefined
opcode carries no operands (rule R81). -/
def requestLen (op : Byte) : Nat :=
  if op = 0x01 then 2
  else if op = 0x02 then 2
  else if op = 0x03 then 3
  else if op = 0x04 then 5
  else if op = 0x05 then 2
  else 1

/-- Reads one request from the front of a byte string (rules R78 to R81) and answers it with the rest of
the string. -/
def decodeRequest (bs : List Byte) : Except DecodeError (Instr × List Byte) :=
  match bs with
  | [] => .error .truncated
  | op :: ops =>
    if op = 0x01 then
      match ops with
      | v :: rest => .ok (.wrcmd v, rest)
      | _ => .error .truncated
    else if op = 0x02 then
      match ops with
      | v :: rest => .ok (.wrdata v, rest)
      | _ => .error .truncated
    else if op = 0x03 then
      match ops with
      | h :: l :: rest => .ok (.wrpix (h ++ l), rest)
      | _ => .error .truncated
    else if op = 0x04 then
      match ops with
      | a :: b :: c :: e :: rest => .ok (.setwin a b c e, rest)
      | _ => .error .truncated
    else if op = 0x05 then
      match ops with
      | r :: rest => .ok (.setrot r, rest)
      | _ => .error .truncated
    else if op = 0x06 then .ok (.init, ops)
    else .error (.undefinedOpcode op)

/-- The first `n` bytes of a byte string and the rest; none where it is shorter. -/
def takeArgs : Nat → List Byte → Option (List Byte × List Byte)
  | 0, bs => some ([], bs)
  | _ + 1, [] => none
  | n + 1, b :: bs =>
    match takeArgs n bs with
    | some (args, rest) => some (b :: args, rest)
    | none => none

/-- Reads one record from the front of a byte string (rules R73 to R76): the command byte, the
argument-count byte, the arguments, and the delay byte when the flag is set. Every command, argument and
delay byte is legal (rule R82). -/
def decodeRecord (bs : List Byte) : Except DecodeError (Record × List Byte) :=
  match bs with
  | cmd :: argc :: rest =>
    match takeArgs (argcCount argc) rest with
    | none => .error .truncated
    | some (args, rest') =>
      if argcFlag argc then
        match rest' with
        | d :: rest'' => .ok ({ cmd := cmd, args := args, delay := some d }, rest'')
        | [] => .error .truncated
      else .ok ({ cmd := cmd, args := args, delay := none }, rest')
  | _ => .error .truncated

/-- The bytes of an instruction: a request's as rule R79 lays them out, a record's as rule R73 does. -/
def encode : Instr → List Byte
  | .wrcmd v => [0x01, v]
  | .wrdata v => [0x02, v]
  | .wrpix c => [0x03, c.extractLsb' 8 8, c.extractLsb' 0 8]
  | .setwin x0 y0 x1 y1 => [0x04, x0, y0, x1, y1]
  | .setrot r => [0x05, r]
  | .init => [0x06]
  | .initrec cmd args => cmd :: argcByte false args.length :: args
  | .initrecD cmd args d => cmd :: argcByte true args.length :: (args ++ [d])

/-- DEDUCED (log 5): the bytes of an instruction that the opcode table gives as the number `w` of `nbits`
bits. The table writes an encoding as one number whose highest byte is the instruction's first byte (the
opcode of WRCMD is its bits 15..8), so the first byte is the number's top byte. The bits above `nbits` are
the operand bytes that follow and are zero; 130 bytes is the longest record (rule R76). -/
def tableBytes (nbits w : Nat) : List Byte :=
  let n := nbits / 8
  (List.range n).map (fun k => BitVec.ofNat 8 (w >>> (8 * (n - 1 - k)))) ++ List.replicate 130 0

/-- The instruction the decoder reads from a row's word. DESIGN CHOICE (log 5): bytes whose first byte is
a defined opcode are read as a request; any other bytes can only be a record's. -/
def decodeTableWord (nbits w : Nat) : Option Instr :=
  match decodeRequest (tableBytes nbits w) with
  | .ok (i, _) => some i
  | .error (.undefinedOpcode _) =>
    match decodeRecord (tableBytes nbits w) with
    | .ok (r, _) => some r.toInstr
    | .error _ => none
  | .error .truncated => none

end Sys2Proof
end

