-- ==== Sys2Proof/Machine/Memory.lean ====
section
/-! DEFINITION. The block's one memory: the read-only init-table ROM (`20_memory.md` rules R50 to R59).

There is no memory write. The ROM is a list of (address, byte) cells in one canonical form: the
addresses are 0, 1, 2, … in order, so the ROM's length is the number of cells and equal ROMs are equal
lists. An address without a cell does not exist (rule R59), so it reads as no value. -/

namespace Sys2Proof

/-- The ROM's cells, lowest address first (rule R50). -/
abbrev Memory := List Host.Cell

/-- `ROM_LEN`, the number of bytes of the ROM (rule R50). -/
def Memory.romLen (m : Memory) : Nat := m.length

/-- `MemRead(a, 1)` (rule R51): the byte at `a`, or none where `a` lies outside the ROM. -/
def Memory.read (m : Memory) (a : Nat) : Option Byte := m.lookup a

/-- The canonical form: the addresses are exactly `0 .. ROM_LEN - 1`, rising (rule R59). -/
def Memory.wf (m : Memory) : Bool := m.map Prod.fst == List.range m.length

/-- The cells that hold the bytes of `bs` from address `n` on. -/
def Memory.ofBytesFrom : Nat → List Byte → Memory
  | _, [] => []
  | n, b :: bs => (n, b) :: Memory.ofBytesFrom (n + 1) bs

/-- The ROM whose image is the byte string `bs`. -/
def Memory.ofBytes (bs : List Byte) : Memory := Memory.ofBytesFrom 0 bs

/-- The bytes from address `tp` to the end of the ROM, in address order: what the table interpreter
has still to read when its pointer is `tp` (rule R164). -/
def Memory.bytesFrom (m : Memory) (tp : Nat) : List Byte :=
  (m.filter (fun c => tp ≤ c.1)).map Prod.snd

end Sys2Proof
end

