-- ==== Sys2Proof/Config.lean ====
section
/-! DEFINITION. The configuration: what is fixed when the block is built (`00_scope.md` rules R1 to R8,
`10_state.md` rule R34).

The source leaves these parameters open, so the model fixes none of them: `Config` is a field of State
that no step writes, and a statement about every state is a statement about every configuration. -/

namespace Sys2Proof

/-- `PANEL_W`, the panel's width (rule R1). -/
def panelW : Byte := 97

/-- `PANEL_H`, the panel's height (rule R1). -/
def panelH : Byte := 69

/-- `RST_HOLD_MS`, the hold of each phase of the controller reset pulse (rule R8). -/
def rstHoldMs : WaitMs := 500

/-- `DELAY_SENTINEL`, the delay byte that stands for `SENTINEL_MS` (rule R8). -/
def delaySentinel : Byte := 255

/-- `SENTINEL_MS`, the wait that the delay byte 255 stands for (rule R8). -/
def sentinelMs : WaitMs := 500

/-- `ROT_MODE`, the orientation command's mode byte for each rotation (rule R5). -/
structure RotModes where
  /-- `ROT_MODE[0]` -/
  r0 : Byte
  /-- `ROT_MODE[1]` -/
  r1 : Byte
  /-- `ROT_MODE[2]` -/
  r2 : Byte
  /-- `ROT_MODE[3]` -/
  r3 : Byte
  deriving DecidableEq, Repr

/-- The parameters that the source leaves open. -/
structure Params where
  /-- `HAS_RST`: whether a controller reset line is bound (rule R2). -/
  hasRst : Bool
  /-- `COL_OFF`, the column origin offset, 0 unless the builder says otherwise (rule R6). -/
  colOff : Byte := 0
  /-- `ROW_OFF`, the row origin offset, 0 unless the builder says otherwise (rule R6). -/
  rowOff : Byte := 0
  /-- `CMD_CASET`, column-address-set (rule R3, as the eleven that follow). -/
  cmdCaset : Byte
  /-- `CMD_RASET`, row-address-set. -/
  cmdRaset : Byte
  /-- `CMD_RAMWR`, memory-write. -/
  cmdRamwr : Byte
  /-- `CMD_MADCTL`, memory-access-control, also the orientation command (rule R207). -/
  cmdMadctl : Byte
  /-- `CMD_COLMOD`, color-mode. -/
  cmdColmod : Byte
  /-- `CMD_SLPOUT`, sleep-out. -/
  cmdSlpout : Byte
  /-- `CMD_NORON`, normal-display-on. -/
  cmdNoron : Byte
  /-- `CMD_INVOFF`, invert-off. -/
  cmdInvoff : Byte
  /-- `CMD_INVON`, invert-on. -/
  cmdInvon : Byte
  /-- `CMD_IDMOFF`, idle-mode-off. -/
  cmdIdmoff : Byte
  /-- `CMD_DISPON`, display-on. -/
  cmdDispon : Byte
  /-- `CMD_CONTRAST`, contrast set. -/
  cmdContrast : Byte
  /-- `CONTRAST_ARGS`, the arguments of the contrast-set record, at most 127 of them (rule R4). -/
  contrastArgs : List Byte
  /-- `ROT_MODE` (rule R5). -/
  rotMode : RotModes
  /-- `T_STEP`, the least time between two line writes (rule R7, rule R311). No rule of the spec
  depends on it and no definition of the model reads it; its unit is open. -/
  tStep : Nat
  deriving DecidableEq, Repr

/-- The range rule R4 gives the one parameter that has a bound. -/
def Params.wf (p : Params) : Bool := p.contrastArgs.length ≤ 127

/-- The whole configuration: the parameters and the init-table ROM (rule R34). The ROM of the block is
the image of rule R181 (`Config.ofParams`); the field is kept apart because the vectors of
`95_test_vectors.md` (program P4) also run the interpreter over other tables. -/
structure Config extends Params where
  /-- The init-table ROM (rule R50). -/
  rom : Memory
  deriving DecidableEq, Repr

/-- DESIGN CHOICE (log 3): the test parameter set TPS of `95_test_vectors.md` section 0, with `T_STEP` 0.
"The values are choices for testing only": they stand in `State.reset` so that it can be run, and no
statement rests on them. -/
def Params.tps : Params where
  hasRst := true
  cmdCaset := 0x2A
  cmdRaset := 0x2B
  cmdRamwr := 0x2C
  cmdMadctl := 0x36
  cmdColmod := 0x3A
  cmdSlpout := 0x11
  cmdNoron := 0x13
  cmdInvoff := 0x20
  cmdInvon := 0x21
  cmdIdmoff := 0x38
  cmdDispon := 0x29
  cmdContrast := 0x25
  contrastArgs := [0x40]
  rotMode := { r0 := 0x00, r1 := 0xA0, r2 := 0xC0, r3 := 0x60 }
  tStep := 0

end Sys2Proof
end

