-- ==== Sys2Proof/Machine/InitTable.lean ====
section
/-! DEFINITION. The fixed init table (`42_init.md` rules R180 to R185). -/

namespace Sys2Proof

/-- The ROM image of the fixed table, `24 + length(CONTRAST_ARGS)` bytes (rule R181). The count byte of
the contrast record is `length(CONTRAST_ARGS)`, which rule R4 keeps below 128. -/
def fixedImage (p : Params) : List Byte :=
  [0x08] ++
  [p.cmdContrast, BitVec.ofNat 8 p.contrastArgs.length] ++ p.contrastArgs ++
  [p.cmdSlpout, 0x80, 0x0A,
   p.cmdNoron, 0x80, 0x0A,
   p.cmdInvoff, 0x80, 0x0A,
   p.cmdIdmoff, 0x80, 0x0A,
   p.cmdMadctl, 0x01, 0x00,
   p.cmdColmod, 0x01, 0x05,
   p.cmdDispon, 0x80, 0xFF]

/-- The block built from the parameters `p`: its ROM is the fixed table (rule R50). -/
def Config.ofParams (p : Params) : Config :=
  { toParams := p, rom := Memory.ofBytes (fixedImage p) }

end Sys2Proof
end

