-- ==== Sys2Proof/Machine/State.lean ====
section
/-! DEFINITION. The state of the machine: the block's architectural state (`10_state.md`), its
configuration, and the inputs that its environment has still to give it. -/

namespace Sys2Proof.Machine

/-- The four output lines (rule R21). -/
inductive Line where
  /-- CS_N, chip-select, active low. -/
  | csN
  /-- SCL, serial clock. -/
  | scl
  /-- SDA, serial data; it also carries the discriminator. -/
  | sda
  /-- LCD_RST, the controller's reset; it exists only with `HAS_RST` (rule R22). -/
  | lcdRst
  deriving DecidableEq, Repr

/-- The levels of the four lines; `true` is level 1 (rule R21). -/
structure Lines where
  csN : Bool
  scl : Bool
  sda : Bool
  lcdRst : Bool
  deriving DecidableEq, Repr

/-- The reset values of the lines (rule R23). -/
def Lines.reset : Lines := { csN := true, scl := false, sda := false, lcdRst := true }

/-- `PS`, the protocol state. Its value 3 is never reached, so it is no constructor (rule R28). -/
inductive ProtocolState where
  /-- UNINIT = 0. -/
  | uninit
  /-- INITIALIZING = 1. -/
  | initializing
  /-- READY = 2. -/
  | ready
  deriving DecidableEq, Repr

/-- `WIN`, the addressing-window phase. Its value 3 is never reached, so it is no constructor
(rule R29). -/
inductive WindowPhase where
  /-- CLOSED = 0. -/
  | closed
  /-- OPEN = 1. -/
  | opened
  /-- STREAMING = 2. -/
  | streaming
  deriving DecidableEq, Repr

/-- The micro-op alphabet (rule R103). -/
inductive MicroOp where
  /-- `SetLine(L, b)`. -/
  | setLine (l : Line) (b : Bool)
  /-- `Wait(n)`, 0 ≤ n ≤ 500. -/
  | wait (n : WaitMs)
  /-- `EndInit`. -/
  | endInit
  deriving DecidableEq, Repr

/-- The two fault kinds that the block records and goes on from (rule R270). -/
inductive FaultKind where
  /-- ILLREQ: an undefined request opcode was offered. -/
  | illreq
  /-- NOTINIT: a request other than INIT was offered in UNINIT. -/
  | notinit
  deriving DecidableEq, Repr

/-- The event alphabet of the observable trace (rule R109). -/
inductive Event where
  | reset
  /-- `Accept(req)`, with the bytes of the request. -/
  | accept (req : List Byte)
  | fault (k : FaultKind)
  | lineWrite (l : Line) (b : Bool)
  | waitBegin (n : WaitMs)
  | tick
  | waitEnd
  | initDone
  deriving DecidableEq, Repr

/-- The agents that take the four step kinds (rule R100). -/
inductive Agent where
  /-- The host, whose step is Accept. -/
  | host
  /-- The block, whose step is Perform. -/
  | block
  /-- The platform's tick source, whose step is Tick. -/
  | tickSource
  /-- The block's reset input, whose step is Reset. -/
  | resetInput
  deriving DecidableEq, Repr

/-- What the host may be asked to do: the primitives of `45_host.md`, or raw request bytes. Host
coordinates, lengths and sizes are integers (rule R230). -/
inductive HostCall where
  /-- Offer these bytes as they are (the assembler's `.byte`, rule R85). -/
  | raw (bytes : List Byte)
  /-- setPixel (rule R232). -/
  | setPixel (x y : Int) (c : Color)
  /-- horizontalRun (rule R233). -/
  | horizontalRun (x y len : Int) (c : Color)
  /-- verticalRun (rule R234). -/
  | verticalRun (x y len : Int) (c : Color)
  /-- fillRect (rule R235). -/
  | fillRect (x y w h : Int) (c : Color)
  /-- fillScreen (rule R236). -/
  | fillScreen (c : Color)
  /-- invertDisplay (rule R237). -/
  | invertDisplay (flag : Bool)
  /-- setRotation (rule R238). -/
  | setRotation (r : Int)
  /-- init() (rule R239). -/
  | init
  /-- The second half of init(): hold every later request until `PS = READY` (rule R239). -/
  | awaitReady
  deriving DecidableEq, Repr

/-- The whole machine. The first group is the block's own state, the second its observation, the third
its configuration, the last what its environment will do. -/
structure State where
  /-- The levels of the output lines (rule R21). -/
  lines : Lines
  /-- `VP_W`, the viewport's width (rule R24). -/
  vpW : Byte
  /-- `VP_H`, the viewport's height (rule R24). -/
  vpH : Byte
  /-- `VP_ROT`, the rotation (rule R24). -/
  vpRot : BitVec 2
  /-- `PS`, bits 1:0 of STATUS (rule R28). -/
  ps : ProtocolState
  /-- `WIN`, bits 6:5 of STATUS (rule R29). -/
  win : WindowPhase
  /-- `Q`, the pending micro-ops, head first (rule R30). -/
  q : List MicroOp
  /-- `DLY`, the delay counter (rule R31). -/
  dly : BitVec 16
  /-- `WACT`: the wait at the head of `Q` has begun (rule R31). -/
  wact : Bool
  /-- `F_ILLREQ`, bit 3 of STATUS (rule R32). -/
  fIllreq : Bool
  /-- `F_NOTINIT`, bit 4 of STATUS (rule R32). -/
  fNotinit : Bool
  /-- `TP`, the table pointer, a loop variable of the INIT expansion that no host can read (rule R35). -/
  tp : Nat
  /-- The event trace, NEWEST FIRST; `State.trace` gives it in order (rule R109). -/
  traceRev : List Event
  /-- The configuration, which no step writes (rule R34). -/
  cfg : Config
  /-- The bytes of the requests that the host has made up its mind to offer, in order (rule R101). -/
  port : List Byte
  /-- What the host will do after those requests, in order (rule R230). -/
  calls : List HostCall
  /-- DESIGN CHOICE (log 1): which agents take the coming turns; when the list is empty the turns go by
  rule R115's fairness. -/
  sched : List Agent
  deriving DecidableEq, Repr

/-- The machine right after a Reset at power-on, built with the configuration `c` (rule R301,
`10_state.md` section 10): the trace holds the event Reset alone, and the environment offers nothing. -/
def State.resetWith (c : Config) : State where
  lines := Lines.reset
  vpW := panelW
  vpH := panelH
  vpRot := 0
  ps := .uninit
  win := .closed
  q := []
  dly := 0
  wact := false
  fIllreq := false
  fNotinit := false
  tp := 0
  traceRev := [.reset]
  cfg := c
  port := []
  calls := []
  sched := []

/-- The machine after reset. Every field but the configuration is as rule R301 says; the configuration is
open, and this one is a named choice (log 3): a statement about reset is made of `State.resetWith c` for
every `c`. -/
def State.reset : State := State.resetWith (Config.ofParams Params.tps)

/-- No step of this machine stops with a fault. The spec's two faults are recorded in STATUS and the block
goes on (rule R273), "no frame request, no table record and no wait can fault once accepted" (rule R270),
and "there is no other halt" than a quiescent state (rule R111), which is an idle step. So the type has
no constructor, and that is safe: it adds no stop. -/
inductive Fault where
  deriving DecidableEq, Repr

/-- Why a step has no meaning. -/
inductive Refusal where
  /-- Raised by `exec` for an instruction without a meaning; no instruction is left in this state. Safe:
  the machine stops where the hardware goes on. -/
  | notModelled (mnemonic : String)
  /-- Raised by INIT when the walk over the init table leaves the ROM: "A block whose ROM is not
  well-formed is refused when it is built: no model exists for it" (rule R77, U3). Safe: no such block
  exists. -/
  | tableIllFormed
  deriving DecidableEq, Repr

end Sys2Proof.Machine
end

