-- ==== Sys2Proof/Machine/Ops.lean ====
section
/-! DEFINITION. The named operations over the state: lines, the ROM, the trace, and what the block does
with a request that faults. -/

namespace Sys2Proof.Machine

/-- The level of a line. -/
def Lines.get (s : Lines) : Line → Bool
  | .csN => s.csN
  | .scl => s.scl
  | .sda => s.sda
  | .lcdRst => s.lcdRst

/-- `L <- b` (rule R104). -/
def Lines.set (s : Lines) (l : Line) (b : Bool) : Lines :=
  match l with
  | .csN => { s with csN := b }
  | .scl => { s with scl := b }
  | .sda => { s with sda := b }
  | .lcdRst => { s with lcdRst := b }

/-- What an observer of the bus reads on a line; without `HAS_RST` there is no LCD_RST line
(rules R21 and R22). -/
def State.readLine (s : State) (l : Line) : Option Bool :=
  if l = .lcdRst ∧ s.cfg.hasRst = false then none else some (s.lines.get l)

/-- `BUSY = (Q ≠ [])` (rule R30). -/
def State.busy (s : State) : Bool := !s.q.isEmpty

/-- `VP_COLOFF`, hardwired to the parameter `COL_OFF` (rule R25). -/
def State.vpColOff (s : State) : Byte := s.cfg.colOff

/-- `VP_ROWOFF`, hardwired to the parameter `ROW_OFF` (rule R25). -/
def State.vpRowOff (s : State) : Byte := s.cfg.rowOff

/-- `MemRead(a, 1)` in the state `s` (rule R51). -/
def State.memRead (s : State) (a : Nat) : Option Byte := s.cfg.rom.read a

/-- `emit(e)`: append an event to the trace (rule R109). -/
def State.emit (s : State) (e : Event) : State := { s with traceRev := e :: s.traceRev }

/-- The observable trace in the order of its events (rule R109). -/
def State.trace (s : State) : List Event := s.traceRev.reverse

/-- `raise Fault(kind)` (rules R271 to R273, R275): set the sticky bit and emit the event. Nothing else
changes: a fault transfers no control and saves no other state, and there is no return from one
(rule R277). -/
def State.raiseFault (s : State) (k : FaultKind) : State :=
  match k with
  | .illreq => { s with fIllreq := true }.emit (.fault .illreq)
  | .notinit => { s with fNotinit := true }.emit (.fault .notinit)

/-- The acceptance of a legal request other than INIT (rules R101 and R102). While `Q ≠ []` the request
is held. Otherwise the block emits `Accept(req)` and then either raises NOTINIT or takes the request's
own effect, which is the acceptance writes together with `Q <- Expand(req)`. -/
def acceptRequest (i : Instr) (effect : State → State) (s : State) : State :=
  if s.busy then s
  else if s.ps = .uninit then (s.emit (.accept (encode i))).raiseFault .notinit
  else effect (s.emit (.accept (encode i)))

/-- The acceptance of a request whose first byte `b` is an undefined opcode: it carries no operands, is
dropped, and raises ILLREQ whatever `PS` holds (rules R81, R102, R271, R274). -/
def rejectOpcode (b : Byte) (s : State) : State :=
  if s.busy then s else (s.emit (.accept [b])).raiseFault .illreq

end Sys2Proof.Machine
end

