-- ==== Sys2Proof/Machine/Operands.lean ====
section
/-! DEFINITION. What the operands of requests and records stand for (`30_encoding.md` rule R80). -/

namespace Sys2Proof.Machine

/-- `DelayMs(d) = (d = 255) ? 500 : d` (rule R75). -/
def delayMs (d : Byte) : WaitMs :=
  if d = delaySentinel then sentinelMs else ⟨d.toNat, Nat.lt_trans d.isLt (by decide)⟩

/-- `r' = r mod 4 = r[1:0]` (rule R205). -/
def rotationMod4 (r : Byte) : BitVec 2 := r.extractLsb' 0 2

/-- The viewport's width and height at a rotation: swapped when it is odd (rules R1 and R206). -/
def viewportOf (r : BitVec 2) : Byte × Byte :=
  if r.getLsbD 0 then (panelH, panelW) else (panelW, panelH)

/-- `ROT_MODE[r']` (rule R5). -/
def rotModeOf (m : RotModes) (r : BitVec 2) : Byte :=
  if r = 0 then m.r0 else if r = 1 then m.r1 else if r = 2 then m.r2 else m.r3

/-- `c[15:8]`, the byte of a colour that is sent first (rule R140). -/
def colorHi (c : Color) : Byte := c.extractLsb' 8 8

/-- `c[7:0]`, the byte of a colour that is sent second (rule R140). -/
def colorLo (c : Color) : Byte := c.extractLsb' 0 8

/-- A window coordinate with its origin offset, modulo 256 (rule R200). -/
def withOrigin (x off : Byte) : Byte := x + off

end Sys2Proof.Machine
end

