-- ==== Sys2Proof/Machine/Flags.lean ====
section
/-! DEFINITION. The read-only STATUS register, the side port, and the addressing-window phase
(`10_state.md` rules R28 to R33, `40_sequencer.md` rule R113). The block has no condition codes
(rule R36). -/

namespace Sys2Proof.Machine

/-- The code of `PS` (rule R28). -/
def ProtocolState.code : ProtocolState → BitVec 2
  | .uninit => 0
  | .initializing => 1
  | .ready => 2

/-- The code of `WIN` (rule R29). -/
def WindowPhase.code : WindowPhase → BitVec 2
  | .closed => 0
  | .opened => 1
  | .streaming => 2

/-- The STATUS bit of a fault kind (rule R270). -/
def FaultKind.statusBit : FaultKind → Nat
  | .illreq => 3
  | .notinit => 4

/-- The code of a fault kind (rule R270). -/
def FaultKind.code : FaultKind → Nat
  | .illreq => 1
  | .notinit => 2

/-- `STATUS` (rule R32): bit 7 reads 0, then `WIN`, `F_NOTINIT`, `F_ILLREQ`, `BUSY` and `PS`. -/
def State.status (s : State) : Byte :=
  0#1 ++ s.win.code ++ BitVec.ofBool s.fNotinit ++ BitVec.ofBool s.fIllreq ++
    BitVec.ofBool s.busy ++ s.ps.code

/-- What the host reads at the side port: STATUS and the viewport, at any time and with no side effect
(rules R32, R33 and R65). -/
structure SidePort where
  status : Byte
  vpW : Byte
  vpH : Byte
  vpRot : BitVec 2
  deriving DecidableEq, Repr

/-- A read of the side port. -/
def State.sidePort (s : State) : SidePort :=
  { status := s.status, vpW := s.vpW, vpH := s.vpH, vpRot := s.vpRot }

/-- What `WIN` becomes when a WRPIX or WRDATA is accepted (rule R113): an open window is streamed to, a
closed one stays closed. -/
def WindowPhase.afterData : WindowPhase → WindowPhase
  | .closed => .closed
  | .opened => .streaming
  | .streaming => .streaming

end Sys2Proof.Machine
end

