-- ==== Sys2Proof/Machine/Frame.lean ====
section
/-! DEFINITION. The bit serializer and the frame encoder, and the requests WRCMD, WRDATA and WRPIX
(`41_frame.md`). -/

namespace Sys2Proof.Machine

/-- `Pulse()`: one clock pulse (rule R130). -/
def pulse : List MicroOp := [.setLine .scl true, .setLine .scl false]

/-- One bit of a byte: the data line, then a pulse (rule R131). -/
def sendBit (b : Bool) : List MicroOp := .setLine .sda b :: pulse

/-- `SendByte(v)`: eight bits, most significant first (rule R131). -/
def sendByte (v : Byte) : List MicroOp :=
  [7, 6, 5, 4, 3, 2, 1, 0].flatMap (fun i => sendBit (v.getLsbD i))

/-- `Frame(dc, v)`: chip-select, the discriminator clocked on SDA, the byte, chip-select released
(rules R133 and R135). `dc` is 0 for a command and 1 for data (rule R70). -/
def frame (dc : Bool) (v : Byte) : List MicroOp :=
  [.setLine .csN false, .setLine .sda dc] ++ pulse ++ sendByte v ++ [.setLine .csN true]

/-- A COMMAND frame. -/
def commandFrame (v : Byte) : List MicroOp := frame false v

/-- A DATA frame. -/
def dataFrame (v : Byte) : List MicroOp := frame true v

/-- WRCMD v (rule R136): one command frame; `WIN <- CLOSED`. -/
def execWrcmd (v : Byte) (s : State) : Host.Outcome State Fault Refusal :=
  .next (acceptRequest (.wrcmd v) (fun s => { s with win := .closed, q := commandFrame v }) s)

/-- WRDATA v (rule R137): one data frame, whatever `WIN` holds. -/
def execWrdata (v : Byte) (s : State) : Host.Outcome State Fault Refusal :=
  .next (acceptRequest (.wrdata v) (fun s => { s with win := s.win.afterData, q := dataFrame v }) s)

/-- WRPIX c (rule R140): two data frames, the high byte first. -/
def execWrpix (c : Color) (s : State) : Host.Outcome State Fault Refusal :=
  .next (acceptRequest (.wrpix c)
    (fun s => { s with win := s.win.afterData, q := dataFrame (colorHi c) ++ dataFrame (colorLo c) }) s)

end Sys2Proof.Machine
end

