-- ==== Sys2Proof/Machine/Window.lean ====
section
/-! DEFINITION. The addressing window and the orientation: SETWIN and SETROT (`43_window.md`). -/

namespace Sys2Proof.Machine

/-- The seven frames of SETWIN in the state `s` (rule R201). -/
def windowFrames (s : State) (x0 y0 x1 y1 : Byte) : List MicroOp :=
  commandFrame s.cfg.cmdCaset ++
    dataFrame (withOrigin x0 s.vpColOff) ++ dataFrame (withOrigin x1 s.vpColOff) ++
  commandFrame s.cfg.cmdRaset ++
    dataFrame (withOrigin y0 s.vpRowOff) ++ dataFrame (withOrigin y1 s.vpRowOff) ++
  commandFrame s.cfg.cmdRamwr

/-- SETWIN x0, y0, x1, y1 (rule R201): nothing about the operands is checked (rule R202). -/
def execSetwin (x0 y0 x1 y1 : Byte) (s : State) : Host.Outcome State Fault Refusal :=
  .next (acceptRequest (.setwin x0 y0 x1 y1)
    (fun s => { s with win := .opened, q := windowFrames s x0 y0 x1 y1 }) s)

/-- The two frames of the orientation command (rule R206). -/
def rotationFrames (s : State) (r : BitVec 2) : List MicroOp :=
  commandFrame s.cfg.cmdMadctl ++ dataFrame (rotModeOf s.cfg.rotMode r)

/-- SETROT r (rule R206): the viewport changes in the accepting step, before the frames are sent
(rule R208). -/
def execSetrot (r : Byte) (s : State) : Host.Outcome State Fault Refusal :=
  .next (acceptRequest (.setrot r)
    (fun s =>
      { s with
        vpRot := rotationMod4 r
        vpW := (viewportOf (rotationMod4 r)).1
        vpH := (viewportOf (rotationMod4 r)).2
        win := .closed
        q := rotationFrames s (rotationMod4 r) }) s)

end Sys2Proof.Machine
end

