-- ==== Sys2Proof/Machine/Init.lean ====
section
/-! DEFINITION. The init sequencer: the table records INITREC and INITREC_D and the request INIT
(`42_init.md`). -/

namespace Sys2Proof.Machine

/-- A record's command frame and then its argument frames, in table order (rule R167). -/
def recordFrames (cmd : Byte) (args : List Byte) : List MicroOp :=
  commandFrame cmd ++ args.flatMap dataFrame

/-- INITREC (rule R165): the frames are appended to the expansion that the interpreter is building, and
`TP` advances by `2 + n`. -/
def initrecNext (cmd : Byte) (args : List Byte) (s : State) : State :=
  { s with q := s.q ++ recordFrames cmd args, tp := s.tp + (2 + args.length) }

/-- INITREC_D (rule R166): as INITREC, then one wait; `TP` advances by `3 + n`. -/
def initrecDNext (cmd : Byte) (args : List Byte) (d : Byte) (s : State) : State :=
  { s with q := s.q ++ (recordFrames cmd args ++ [.wait (delayMs d)]), tp := s.tp + (3 + args.length) }

/-- INITREC as an instruction (rule R165). -/
def execInitrec (cmd : Byte) (args : List Byte) (s : State) : Host.Outcome State Fault Refusal :=
  .next (initrecNext cmd args s)

/-- INITREC_D as an instruction (rule R166). -/
def execInitrecD (cmd : Byte) (args : List Byte) (d : Byte) (s : State) :
    Host.Outcome State Fault Refusal :=
  .next (initrecDNext cmd args d s)

/-- The record the interpreter fetches at `TP`, where the ROM holds a whole one (rule R164). -/
def fetchRecord (s : State) : Option Record :=
  match decodeRecord (s.cfg.rom.bytesFrom s.tp) with
  | .ok (r, _) => some r
  | .error _ => none

/-- Runs one record. -/
def runRecord (r : Record) (s : State) : State :=
  match r.delay with
  | none => initrecNext r.cmd r.args s
  | some d => initrecDNext r.cmd r.args d s

/-- Runs `k` records one after the other (the loop of rule R164); none where the walk leaves the ROM. -/
def runRecords : Nat → State → Option State
  | 0, s => some s
  | k + 1, s =>
    match fetchRecord s with
    | none => none
    | some r => runRecords k (runRecord r s)

/-- The table interpreter (rule R164): the record count is byte 0, and `TP` starts at 1. -/
def runTable (s : State) : Option State :=
  match s.memRead 0 with
  | none => none
  | some n => runRecords n.toNat { s with tp := 1 }

/-- `ResetPulse()`: empty without a reset line (rule R161). -/
def resetPulse (p : Params) : List MicroOp :=
  if p.hasRst then
    [.setLine .lcdRst true, .wait rstHoldMs, .setLine .lcdRst false, .wait rstHoldMs,
     .setLine .lcdRst true, .wait rstHoldMs]
  else []

/-- INIT (rule R160): accepted in every `PS`; `Q <- ResetPulse() ++ TableExpand(ROM) ++ [EndInit]`, where
the records of the table put their own micro-ops in `Q`. A configuration whose ROM is not well-formed is
no block (rule R77, U3). -/
def execInit (s : State) : Host.Outcome State Fault Refusal :=
  if s.busy then .next s
  else
    match runTable { s.emit (.accept (encode .init)) with
        ps := .initializing, win := .closed, q := resetPulse s.cfg.toParams } with
    | none => .refused .tableIllFormed
    | some t => .next { t with q := t.q ++ [.endInit] }

end Sys2Proof.Machine
end

