-- ==== Sys2Proof/Machine/Dispatch.lean ====
section
/-! DEFINITION. One arm per instruction. -/

namespace Sys2Proof.Machine

def exec (i : Instr) (s : State) : Host.Outcome State Fault Refusal :=
  match i with
  | .wrcmd v => Sys2Proof.Machine.execWrcmd v s
  | .wrdata v => Sys2Proof.Machine.execWrdata v s
  | .wrpix c => Sys2Proof.Machine.execWrpix c s
  | .setwin x0 y0 x1 y1 => Sys2Proof.Machine.execSetwin x0 y0 x1 y1 s
  | .setrot r => Sys2Proof.Machine.execSetrot r s
  | .init => Sys2Proof.Machine.execInit s
  | .initrec cmd args => Sys2Proof.Machine.execInitrec cmd args s
  | .initrecD cmd args d => Sys2Proof.Machine.execInitrecD cmd args d s

end Sys2Proof.Machine
end

