-- ==== Sys2Proof/Machine/Sequencer.lean ====
section
/-! DEFINITION. The steps Perform, Tick and Reset (`40_sequencer.md` rules R104 to R108,
`60_exceptions.md` rule R281, `70_reset_and_hazards.md` rule R301). -/

namespace Sys2Proof.Machine

/-- Whether the head of `Q` is a wait that has begun and has ticks left: the block is held (rule R107). -/
def State.held (s : State) : Bool :=
  match s.q with
  | .wait _ :: _ => s.wact && s.dly != 0
  | _ => false

/-- Perform (rules R104 to R108): one micro-op, in one step. Where the step is not enabled, because `Q` is
empty or the block is held, nothing changes. -/
def perform (s : State) : State :=
  match s.q with
  | [] => s
  | .setLine l b :: q => { s with lines := s.lines.set l b, q := q }.emit (.lineWrite l b)
  | .wait n :: q =>
    if s.wact then
      if s.dly = 0 then { s with q := q, wact := false }.emit .waitEnd else s
    else { s with dly := BitVec.ofNat 16 n.val, wact := true }.emit (.waitBegin n)
  | .endInit :: q => { s with q := q, ps := .ready }.emit .initDone

/-- Tick (rule R281): one counted tick of a wait that has begun; any other tick has no effect and emits
nothing. -/
def tick (s : State) : State :=
  if s.wact = true ∧ s.dly ≠ 0 then { s with dly := s.dly - 1 }.emit .tick else s

/-- Reset (rules R301 and R303): every piece of the block's state takes its reset value in one step, the
configuration is untouched, and the event Reset is appended to the trace. What the environment will do is
not the block's state and stays. -/
def blockReset (s : State) : State :=
  { State.resetWith s.cfg with
    traceRev := .reset :: s.traceRev
    port := s.port
    calls := s.calls
    sched := s.sched }

end Sys2Proof.Machine
end

