-- ==== Sys2Proof/Machine/HostModel.lean ====
section
/-! DEFINITION. The host's primitives as sequences of requests (`45_host.md`). They are not part of the
block; they are the agent that offers it requests. -/

namespace Sys2Proof.Machine

/-- packColor565 (rule R231). -/
def packColor565 (r g b : Byte) : Color :=
  ((r &&& 0xF8).setWidth 16 <<< 8) ||| ((g &&& 0xFC).setWidth 16 <<< 3) ||| (b >>> 3).setWidth 16

/-- The byte of a host integer (rule R230: in range wherever a primitive offers it). -/
def byteOfInt (x : Int) : Byte := BitVec.ofInt 8 x

/-- Whether `x` lies in `[0, w)` (rule R230). -/
def inside (x : Int) (w : Byte) : Bool := 0 ≤ x && x < w.toNat

/-- A length clamped so that a run from `x` does not pass `w`: the test is `x + len - 1 ≥ w`
(rules R233 and R235). -/
def clampTo (x len : Int) (w : Byte) : Int :=
  if x + len - 1 ≥ w.toNat then w.toNat - x else len

/-- setPixel (rule R232). -/
def setPixelRequests (vpW vpH : Byte) (x y : Int) (c : Color) : List Instr :=
  if inside x vpW && inside y vpH then
    [.setwin (byteOfInt x) (byteOfInt y) (byteOfInt x) (byteOfInt y), .wrpix c]
  else []

/-- horizontalRun (rule R233). -/
def horizontalRunRequests (vpW vpH : Byte) (x y len : Int) (c : Color) : List Instr :=
  if inside x vpW && inside y vpH && decide (0 < len) then
    let n := clampTo x len vpW
    .setwin (byteOfInt x) (byteOfInt y) (byteOfInt (x + n - 1)) (byteOfInt y) ::
      List.replicate n.toNat (.wrpix c)
  else []

/-- verticalRun (rule R234). -/
def verticalRunRequests (vpW vpH : Byte) (x y len : Int) (c : Color) : List Instr :=
  if inside x vpW && inside y vpH && decide (0 < len) then
    let n := clampTo y len vpH
    .setwin (byteOfInt x) (byteOfInt y) (byteOfInt x) (byteOfInt (y + n - 1)) ::
      List.replicate n.toNat (.wrpix c)
  else []

/-- The positions of fillRect's pixel stream: rows outer, from `h` down to 0, columns from `w` down to 0
(rule R235). -/
def fillOrder (w h : Nat) : List (Nat × Nat) :=
  (List.range (h + 1)).reverse.flatMap (fun row => (List.range (w + 1)).reverse.map (fun col => (row, col)))

/-- fillRect (rule R235). The window ends one beyond the nominal rectangle, and the stream has
`(w + 1) × (h + 1)` pixels. -/
def fillRectRequests (vpW vpH : Byte) (x y w h : Int) (c : Color) : List Instr :=
  if inside x vpW && inside y vpH && decide (0 ≤ w) && decide (0 ≤ h) then
    let w' := clampTo x w vpW
    let h' := clampTo y h vpH
    .setwin (byteOfInt x) (byteOfInt y) (byteOfInt (x + w')) (byteOfInt (y + h')) ::
      (fillOrder w'.toNat h'.toNat).map (fun _ => .wrpix c)
  else []

/-- fillScreen (rule R236). -/
def fillScreenRequests (vpW vpH : Byte) (c : Color) : List Instr :=
  fillRectRequests vpW vpH 0 0 vpW.toNat vpH.toNat c

/-- invertDisplay (rule R237). -/
def invertDisplayRequests (p : Params) (flag : Bool) : List Instr :=
  [.wrcmd (if flag then p.cmdInvon else p.cmdInvoff)]

/-- setRotation: the host reduces `r` into `[0, 3]` before it offers SETROT (rule R238). -/
def setRotationRequests (r : Int) : List Instr := [.setrot (byteOfInt (r % 4))]

/-- The requests of a call, computed from the viewport that the host reads at the side port
(rule R230). -/
def callRequests (p : Params) (vpW vpH : Byte) : HostCall → List Instr
  | .raw _ => []
  | .setPixel x y c => setPixelRequests vpW vpH x y c
  | .horizontalRun x y len c => horizontalRunRequests vpW vpH x y len c
  | .verticalRun x y len c => verticalRunRequests vpW vpH x y len c
  | .fillRect x y w h c => fillRectRequests vpW vpH x y w h c
  | .fillScreen c => fillScreenRequests vpW vpH c
  | .invertDisplay flag => invertDisplayRequests p flag
  | .setRotation r => setRotationRequests r
  | .init => [.init]
  | .awaitReady => []

/-- The bytes that requests are offered as (rule R78). -/
def requestBytes (is : List Instr) : List Byte := is.flatMap encode

/-- The host takes up its next call, when no request is pending (rule R230): it computes the call's
requests and is then ready to offer them. init() is INIT and then a hold until `PS = READY`
(rule R239). -/
def takeCall (s : State) : State :=
  match s.calls with
  | [] => s
  | .raw bs :: cs => { s with port := bs, calls := cs }
  | .init :: cs => { s with port := encode .init, calls := .awaitReady :: cs }
  | .awaitReady :: cs => if s.ps = .ready then { s with calls := cs } else s
  | c :: cs =>
    { s with port := requestBytes (callRequests s.cfg.toParams s.sidePort.vpW s.sidePort.vpH c), calls := cs }

end Sys2Proof.Machine
end

