-- ==== Sys2Proof/Machine/Agents.lean ====
section
/-! DEFINITION. Whose turn it is, and what each agent does in its turn (`40_sequencer.md` rules R100,
R101 and R115). -/

namespace Sys2Proof.Machine

/-- Accept (rules R101 and R102), in a state with `Q = []`: the request at the front of the port is taken
off it and, if its opcode is defined, executed. A request that is not yet whole is not offered, so the
host waits. When the port is empty the host takes up its next call. -/
def offerNext (s : State) : Host.Outcome State Fault Refusal :=
  match decodeRequest s.port with
  | .ok (i, rest) => exec i { s with port := rest }
  | .error (.undefinedOpcode b) => .next (rejectOpcode b { s with port := s.port.tail })
  | .error .truncated => if s.port = [] then .next (takeCall s) else .next s

/-- The host's turn: while `BUSY = 1` it holds its request (rule R101). -/
def hostTurn (s : State) : Host.Outcome State Fault Refusal :=
  if s.busy then .next s else offerNext s

/-- One turn of an agent. An agent whose step is not enabled lets its turn pass, and nothing happens
(rule R100). -/
def agentTurn (a : Agent) (s : State) : Host.Outcome State Fault Refusal :=
  match a with
  | .host => hostTurn s
  | .block => .next (perform s)
  | .tickSource => .next (tick s)
  | .resetInput => .next (blockReset s)

/-- DESIGN CHOICE (log 1): who moves when no schedule says so. The block when it can, the tick source
when the block is held by a wait, the host when the block is idle: the fairness of rule R115, and no
Reset. -/
def fairAgent (s : State) : Agent :=
  if s.busy then if s.held then .tickSource else .block else .host

/-- One step of the machine (rule R100): the turn of the next agent of the schedule, or of the fair agent
when the schedule is empty. Every order of turns is the schedule of some state, so what holds for every
state holds for every order (rule R278). -/
def takeStep (s : State) : Host.Outcome State Fault Refusal :=
  match s.sched with
  | [] => agentTurn (fairAgent s) s
  | a :: as => agentTurn a { s with sched := as }

end Sys2Proof.Machine
end

