-- ==== Sys2Proof/Machine/Step.lean ====
section
/-! DEFINITION. The step, and how a word of the opcode table is put where the next step runs it. -/

namespace Sys2Proof.Machine

/-- One step of the machine. -/
def step (s : State) : Host.Outcome State Fault Refusal := takeStep s

/-- The very next step is the acceptance of the request whose bytes are `bs`: the block is idle, the host
has the next turn, and the request is the next one offered (log 6). -/
def State.offering (s : State) (bs : List Byte) : State :=
  { s with q := [], dly := 0, wact := false, sched := .host :: s.sched, port := bs ++ s.port }

/-- The instruction of a table word stored where the next step fetches (log 6). A request is offered at
the request port. A record is the one record of the init table, and INIT is offered: the step that accepts
INIT runs the table. -/
def State.withFetchWord (s : State) (nbits w : Nat) : State :=
  let bs := tableBytes nbits w
  match decodeRequest bs with
  | .ok _ => s.offering (bs.take (requestLen (bs.headD 0)))
  | .error _ =>
    { s with cfg := { s.cfg with rom := Memory.ofBytes (0x01 :: bs.take (recLen (bs.getD 1 0))) } }.offering (encode .init)

end Sys2Proof.Machine
end

