-- ==== Sys2Proof/Machine/Asm.lean ====
section
/-! DEFINITION. The assembly syntax of requests and of init tables (`30_encoding.md` rules R85 and R86).
An answer of none is an assembly error. -/

namespace Sys2Proof.Machine

/-- The tokens of a line. -/
inductive Token where
  /-- A mnemonic or a directive, in lower case. -/
  | word (cs : List Char)
  | num (n : Nat)
  | comma
  | semicolon
  deriving DecidableEq, Repr

/-- The value of a decimal digit. -/
def decDigit (c : Char) : Option Nat :=
  if '0' ≤ c ∧ c ≤ '9' then some (c.toNat - '0'.toNat) else none

/-- The value of a hexadecimal digit. -/
def hexDigit (c : Char) : Option Nat :=
  if 'a' ≤ c ∧ c ≤ 'f' then some (c.toNat - 'a'.toNat + 10)
  else if 'A' ≤ c ∧ c ≤ 'F' then some (c.toNat - 'A'.toNat + 10)
  else decDigit c

/-- The number whose digits are `cs` in the base `base`, after `acc`. -/
def digits (base : Nat) (digit : Char → Option Nat) : Nat → List Char → Option Nat
  | acc, [] => some acc
  | acc, c :: cs =>
    match digit c with
    | some d => digits base digit (acc * base + d) cs
    | none => none

/-- A number: decimal, or hexadecimal after `0x` (rule R85). -/
def parseNumber : List Char → Option Nat
  | [] => none
  | '0' :: 'x' :: [] => none
  | '0' :: 'x' :: cs => digits 16 hexDigit 0 cs
  | cs => digits 10 decDigit 0 cs

/-- The token that a run of characters is: a number where it begins with a digit, a word otherwise. -/
def tokenOf (cs : List Char) : Option Token :=
  match cs with
  | [] => none
  | c :: _ =>
    if (decDigit c).isSome then (parseNumber cs).map .num else some (.word (cs.map Char.toLower))

/-- Puts the run `cur` (last character first), where there is one, before the tokens `ts`. -/
def endRun (cur : List Char) (ts : List Token) : Option (List Token) :=
  if cur.isEmpty then some ts else (tokenOf cur.reverse).map (· :: ts)

/-- The tokens of a line: words and numbers separated by blanks, commas and semicolons. -/
def lexLine : List Char → List Char → Option (List Token)
  | cur, [] => endRun cur []
  | cur, c :: cs =>
    if c = ' ' then (lexLine [] cs).bind (endRun cur)
    else if c = ',' then (lexLine [] cs).bind (fun ts => endRun cur (.comma :: ts))
    else if c = ';' then (lexLine [] cs).bind (fun ts => endRun cur (.semicolon :: ts))
    else lexLine (c :: cur) cs

/-- Operands after the first, each behind a comma. -/
def parseMore : List Token → Option (List Nat)
  | [] => some []
  | .comma :: .num n :: ts => (parseMore ts).map (n :: ·)
  | _ => none

/-- Operands separated by commas; there may be none. -/
def parseOperands : List Token → Option (List Nat)
  | [] => some []
  | .num n :: ts => (parseMore ts).map (n :: ·)
  | _ => none

/-- A byte operand: "an operand that does not fit its width is an assembly error" (rule R85). -/
def byteOperand (n : Nat) : Option Byte := if n < 256 then some (BitVec.ofNat 8 n) else none

/-- A colour operand, 16 bits wide (rule R85). -/
def colorOperand (n : Nat) : Option Color := if n < 65536 then some (BitVec.ofNat 16 n) else none

/-- The bytes of a request from its mnemonic, in lower case, and its operands (rule R85). -/
def assembleRequest (m : List Char) (ops : List Nat) : Option (List Byte) :=
  if m = ['w', 'r', 'c', 'm', 'd'] then
    match ops with
    | [v] => (byteOperand v).map (fun v => encode (.wrcmd v))
    | _ => none
  else if m = ['w', 'r', 'd', 'a', 't', 'a'] then
    match ops with
    | [v] => (byteOperand v).map (fun v => encode (.wrdata v))
    | _ => none
  else if m = ['w', 'r', 'p', 'i', 'x'] then
    match ops with
    | [c] => (colorOperand c).map (fun c => encode (.wrpix c))
    | _ => none
  else if m = ['s', 'e', 't', 'w', 'i', 'n'] then
    match ops with
    | [a, b, c, e] =>
      match byteOperand a, byteOperand b, byteOperand c, byteOperand e with
      | some a, some b, some c, some e => some (encode (.setwin a b c e))
      | _, _, _, _ => none
    | _ => none
  else if m = ['s', 'e', 't', 'r', 'o', 't'] then
    match ops with
    | [r] => (byteOperand r).map (fun r => encode (.setrot r))
    | _ => none
  else if m = ['i', 'n', 'i', 't'] then
    match ops with
    | [] => some (encode .init)
    | _ => none
  else if m = ['.', 'b', 'y', 't', 'e'] then
    match ops with
    | [b] => (byteOperand b).map (fun b => [b])
    | _ => none
  else none

/-- One line of request assembly (rule R85). -/
def assembleLine (line : List Char) : Option (List Byte) :=
  match lexLine [] line with
  | some (.word m :: ts) => (parseOperands ts).bind (assembleRequest m)
  | _ => none

/-- The delay byte of `; delay d`; `; delay 500` is a spelling of 255 (rule R86). -/
def delayOperand (n : Nat) : Option Byte := if n = 500 then some delaySentinel else byteOperand n

/-- Byte operands, all of which must fit. -/
def byteOperands : List Nat → Option (List Byte)
  | [] => some []
  | n :: ns =>
    match byteOperand n, byteOperands ns with
    | some b, some bs => some (b :: bs)
    | _, _ => none

/-- The record of `cmd, a1, …, an` and its delay, with at most 127 arguments (rules R74 and R86). -/
def assembleRecord (ops : List Nat) (delay : Option Byte) : Option Record :=
  match byteOperands ops with
  | some (cmd :: args) =>
    if args.length ≤ 127 then some { cmd := cmd, args := args, delay := delay } else none
  | _ => none

/-- One line `REC cmd [, a1, …, an] [; delay d]` (rule R86). -/
def assembleRecordLine (line : List Char) : Option Record :=
  match lexLine [] line with
  | some (.word ['r', 'e', 'c'] :: ts) =>
    match parseOperands (ts.takeWhile (· != .semicolon)), ts.dropWhile (· != .semicolon) with
    | some ops, [] => assembleRecord ops none
    | some ops, [.semicolon, .word ['d', 'e', 'l', 'a', 'y'], .num d] =>
      (delayOperand d).bind (fun d => assembleRecord ops (some d))
    | _, _ => none
  | _ => none

/-- The records of the lines, all of which must assemble. -/
def assembleRecordLines : List (List Char) → Option (List Record)
  | [] => some []
  | l :: ls =>
    match assembleRecordLine l, assembleRecordLines ls with
    | some r, some rs => some (r :: rs)
    | _, _ => none

/-- The image of a list of records: the count byte, then the records end to end (rules R72 and R86). -/
def tableImage (rs : List Record) : List Byte :=
  BitVec.ofNat 8 rs.length :: rs.flatMap (fun r => encode r.toInstr)

/-- An init table: the line `.records N` and then exactly `N` record lines (rule R86). -/
def assembleTable (lines : List (List Char)) : Option (List Byte) :=
  match lines with
  | [] => none
  | first :: rest =>
    match lexLine [] first, assembleRecordLines rest with
    | some [.word ['.', 'r', 'e', 'c', 'o', 'r', 'd', 's'], .num n], some rs =>
      if n = rs.length ∧ n < 256 then some (tableImage rs) else none
    | _, _ => none

end Sys2Proof.Machine
end

