-- ==== Sys2Proof/Machine/TableSpec.lean ====
section
/-! DEFINITION. The two definitions of the spec that walk the whole ROM, written as the spec writes them:
`WellFormed(ROM)` (rule R77) and `TableExpand(ROM)` (rule R164). The machine runs the table record by
record (`Machine/Init.lean`); the statements compare the two. -/

namespace Sys2Proof.Machine

/-- The loop of rule R77: `k` records from the pointer `p` on. -/
def wfWalk (rom : Memory) : Nat → Nat → Bool
  | 0, _ => true
  | k + 1, p =>
    if p + 1 ≥ rom.romLen then false
    else
      match rom.read (p + 1) with
      | none => false
      | some argc => if p + recLen argc > rom.romLen then false else wfWalk rom k (p + recLen argc)

/-- `WellFormed(ROM)` (rule R77). -/
def romWellFormed (rom : Memory) : Bool :=
  match rom.read 0 with
  | none => false
  | some n => wfWalk rom n.toNat 1

/-- The argument frames of rule R164: `n` bytes from `tp` on, each a data frame. -/
def expandArgs (rom : Memory) : Nat → Nat → Option (List MicroOp)
  | 0, _ => some []
  | n + 1, tp =>
    match rom.read tp, expandArgs rom n (tp + 1) with
    | some a, some rest => some (frame true a ++ rest)
    | _, _ => none

/-- The wait of rule R164: the delay byte at `tp`, where the flag is set. -/
def expandDelay (rom : Memory) (flag : Bool) (tp : Nat) : Option (List MicroOp) :=
  if flag then
    match rom.read tp with
    | some d => some [.wait (delayMs d)]
    | none => none
  else some []

/-- The loop of rule R164: `k` records from the pointer `tp` on. -/
def expandRecords (rom : Memory) : Nat → Nat → Option (List MicroOp)
  | 0, _ => some []
  | k + 1, tp =>
    match rom.read tp, rom.read (tp + 1) with
    | some cmd, some argc =>
      match expandArgs rom (argcCount argc) (tp + 2),
          expandDelay rom (argcFlag argc) (tp + 2 + argcCount argc),
          expandRecords rom k (tp + recLen argc) with
      | some args, some wait, some rest => some (frame false cmd ++ args ++ wait ++ rest)
      | _, _, _ => none
    | _, _ => none

/-- `TableExpand(ROM)` (rule R164); none where the walk leaves the ROM. -/
def tableExpand (rom : Memory) : Option (List MicroOp) :=
  match rom.read 0 with
  | none => none
  | some n => expandRecords rom n.toNat 1

/-- `Expand(INIT)` (rule R160). -/
def expandInit (c : Config) : Option (List MicroOp) :=
  match tableExpand c.rom with
  | none => none
  | some t => some (resetPulse c.toParams ++ t ++ [.endInit])

end Sys2Proof.Machine
end

