-- ==== Sys2Proof/Machine/Receiver.lean ====
section
/-! DEFINITION. What an observer of the lines recovers from the event trace: the frames
(`41_frame.md` rules R141 to R143) and the level changes (rule R139). -/

namespace Sys2Proof.Machine

/-- A frame as the receiver records it: `{dc, v[7:0]}` (rule R70). -/
structure BusFrame where
  dc : Bool
  v : Byte
  deriving DecidableEq, Repr

/-- C:v, a COMMAND frame. -/
def BusFrame.command (v : Byte) : BusFrame := { dc := false, v := v }

/-- D:v, a DATA frame. -/
def BusFrame.data (v : Byte) : BusFrame := { dc := true, v := v }

/-- The edge of SCL at which a receiver samples SDA: the reference receiver takes the rising edge
(rule R141), the one of rule R142 the falling edge. -/
inductive Edge where
  | rising
  | falling
  deriving DecidableEq, Repr

/-- The receiver: the four line levels, the bit buffer `B`, and the frames recorded so far, oldest
first. -/
structure Receiver where
  lines : Lines
  buf : List Bool
  frames : List BusFrame
  deriving DecidableEq, Repr

/-- The receiver before the first event, which is a Reset (rule R301). -/
def Receiver.start : Receiver := { lines := Lines.reset, buf := [], frames := [] }

/-- The byte whose bits are `bs`, most significant first. -/
def byteOfBits (bs : List Bool) : Byte :=
  bs.foldl (fun v b => (v <<< 1) ||| (BitVec.ofBool b).setWidth 8) 0

/-- Appends one sampled bit; the ninth completes a frame `(b1, {b2, …, b9})`. -/
def Receiver.sample (r : Receiver) (b : Bool) : Receiver :=
  match r.buf ++ [b] with
  | dc :: bits =>
    if bits.length = 8 then
      { r with buf := [], frames := r.frames ++ [{ dc := dc, v := byteOfBits bits }] }
    else { r with buf := dc :: bits }
  | [] => r

/-- Whether a write of `b` on `l` is the sampling edge `e` while CS_N is 0. -/
def Receiver.samples (e : Edge) (r : Receiver) (l : Line) (b : Bool) : Bool :=
  l == .scl && !r.lines.csN && (match e with
    | .rising => b && !r.lines.scl
    | .falling => !b && r.lines.scl)

/-- Whether a write of `b` on `l` releases chip-select. -/
def Receiver.deselects (r : Receiver) (l : Line) (b : Bool) : Bool :=
  l == .csN && b && !r.lines.csN

/-- One event (rule R141). -/
def Receiver.observe (e : Edge) (r : Receiver) : Event → Receiver
  | .reset => { r with lines := Lines.reset, buf := [] }
  | .lineWrite l b =>
    let r' := { r with lines := r.lines.set l b }
    if r.samples e l b then r'.sample r.lines.sda
    else if r.deselects l b then { r' with buf := [] }
    else r'
  | _ => r

/-- The receiver after a trace. -/
def receive (e : Edge) (es : List Event) : Receiver := es.foldl (Receiver.observe e) Receiver.start

/-- The frames that the reference receiver recovers from a trace (rule R141). -/
def recoveredFrames (es : List Event) : List BusFrame := (receive .rising es).frames

/-- The frames of a table record (rules R165 and R166). -/
def recordBusFrames (r : Record) : List BusFrame := .command r.cmd :: r.args.map .data

/-- The frames of `k` records of the ROM, from the bytes `bs` on. -/
def tableBusFrames : Nat → List Byte → List BusFrame
  | 0, _ => []
  | k + 1, bs =>
    match decodeRecord bs with
    | .ok (r, rest) => recordBusFrames r ++ tableBusFrames k rest
    | .error _ => []

/-- The `(dc, v)` pairs of the `Frame` calls of an instruction's expansion, in order (rule R143), for a
block with the configuration `c`. -/
def busFrames (c : Config) : Instr → List BusFrame
  | .wrcmd v => [.command v]
  | .wrdata v => [.data v]
  | .wrpix col => [.data (colorHi col), .data (colorLo col)]
  | .setwin x0 y0 x1 y1 =>
    [.command c.cmdCaset, .data (withOrigin x0 c.colOff), .data (withOrigin x1 c.colOff),
     .command c.cmdRaset, .data (withOrigin y0 c.rowOff), .data (withOrigin y1 c.rowOff),
     .command c.cmdRamwr]
  | .setrot r => [.command c.cmdMadctl, .data (rotModeOf c.rotMode (rotationMod4 r))]
  | .init => tableBusFrames (((c.rom.read 0).getD 0).toNat) (c.rom.bytesFrom 1)
  | .initrec cmd args => .command cmd :: args.map .data
  | .initrecD cmd args _ => .command cmd :: args.map .data

/-- The level trace of a list of events, from the levels `l` on: the line writes that do not change a
level are left out (rule R139). A Reset sets the levels (rule R301). -/
def levelTrace : Lines → List Event → List Event
  | _, [] => []
  | _, .reset :: es => .reset :: levelTrace Lines.reset es
  | l, .lineWrite x b :: es =>
    if l.get x = b then levelTrace l es else .lineWrite x b :: levelTrace (l.set x b) es
  | l, e :: es => e :: levelTrace l es

end Sys2Proof.Machine
end

