-- ==== Sys2Proof/Safety.lean ====
section
/-! DEFINITION. The terms that the statements are made of: whose turn a step is, what a queue of
micro-ops will do, and the invariants of the machine. -/

namespace Sys2Proof.Machine

/-- The step in which the agent `a` has the turn (rule R100). -/
def turn (a : Agent) (s : State) : Host.Outcome State Fault Refusal :=
  step { s with sched := a :: s.sched }

/-- The agent that has the turn in the next step. -/
def mover (s : State) : Agent :=
  match s.sched with
  | [] => fairAgent s
  | a :: _ => a

/-- `Offers s i`: the next step is the host's, the block is idle, and the request at the front of the port
is `i`. So the next step is the acceptance of `i`. -/
def Offers (s : State) (i : Instr) : Prop :=
  mover s = .host ∧ s.q = [] ∧ ∃ rest, decodeRequest s.port = .ok (i, rest)

/-- `k` steps, stopping at the first stop: `Host.Core.run` of this machine (`Laws/Step.lean`). -/
def runFor : Nat → State → Host.Outcome State Fault Refusal
  | 0, s => .next s
  | k + 1, s =>
    match step s with
    | .next s' => runFor k s'
    | .fault r => .fault r
    | .refused r => .refused r

/-- A quiescent state: `Q = []` and the host offers no request (rule R111). DESIGN CHOICE (log 19): the host
offers none when it has nothing left to do, no byte at the port and no call. A host that waits for ever (in
`awaitReady` after a Reset within init(), or with a request that is not whole at the port) is not called
quiescent, although its steps change nothing either. -/
def Quiescent (s : State) : Prop := s.q = [] ∧ s.port = [] ∧ s.calls = []

/-- The line levels after the line writes of `ops`. -/
def linesAfter : List MicroOp → Lines → Lines
  | [], l => l
  | .setLine x b :: ops, l => linesAfter ops (l.set x b)
  | _ :: ops, l => linesAfter ops l

/-- The events of a wait of which `n` ticks are left (rules R106 and R107). -/
def waitTail (n : Nat) : List Event := List.replicate n .tick ++ [.waitEnd]

/-- The events of performing a micro-op (rules R104 to R108). -/
def opEvents : MicroOp → List Event
  | .setLine l b => [.lineWrite l b]
  | .wait n => .waitBegin n :: waitTail n.val
  | .endInit => [.initDone]

/-- The events of performing a list of micro-ops in order (rule R110). -/
def runEvents (ops : List MicroOp) : List Event := ops.flatMap opEvents

/-- The events that the block has still to emit for what is in its queue. -/
def eventsToCome (s : State) : List Event :=
  match s.q, s.wact with
  | .wait _ :: ops, true => waitTail s.dly.toNat ++ runEvents ops
  | ops, _ => runEvents ops

/-- The steps, Perform and Tick together, that a list of micro-ops takes: one for a line write or an
EndInit, and for a wait its begin, its ticks and its end (rule R320). -/
def opSteps : List MicroOp → Nat
  | [] => 0
  | .setLine _ _ :: ops => 1 + opSteps ops
  | .wait n :: ops => 2 + n.val + opSteps ops
  | .endInit :: ops => 1 + opSteps ops

/-- The protocol state after a list of micro-ops (rule R108). -/
def psAfter : List MicroOp → ProtocolState → ProtocolState
  | [], p => p
  | .endInit :: ops, _ => psAfter ops .ready
  | _ :: ops, p => psAfter ops p

/-- Whether an event is a line write, the events that a level trace is made of (rule R139). -/
def Event.isLineWrite : Event → Bool
  | .lineWrite _ _ => true
  | .reset | .accept _ | .fault _ | .waitBegin _ | .tick | .waitEnd | .initDone => false

/-- The micro-ops of a record's delay: one wait where it has a delay byte (rule R166). -/
def delayOps : Option Byte → List MicroOp
  | none => []
  | some d => [.wait (delayMs d)]

/-- The state in which every micro-op of the queue has been performed, when no wait had begun. -/
def completed (s : State) : State :=
  { s with
    lines := linesAfter s.q s.lines
    ps := psAfter s.q s.ps
    q := []
    traceRev := (runEvents s.q).reverse ++ s.traceRev }

/-- The viewport agrees with the rotation (rule R26). -/
def ViewportInv (s : State) : Prop :=
  (s.vpRot.getLsbD 0 = false → s.vpW = 97 ∧ s.vpH = 69) ∧
  (s.vpRot.getLsbD 0 = true → s.vpW = 69 ∧ s.vpH = 97)

/-- What every step of the machine keeps. -/
structure MachineInv (s : State) : Prop where
  /-- The viewport agrees with the rotation (rule R26). -/
  viewport : ViewportInv s
  /-- Performing the queue leaves the bus idle: SCL low and chip-select released. With an empty queue this
  is rule R37. -/
  endsIdle : (linesAfter s.q s.lines).scl = false ∧ (linesAfter s.q s.lines).csN = true
  /-- Without a reset line nothing writes it (rule R22). -/
  noResetLine : s.cfg.hasRst = false → (∀ b, MicroOp.setLine .lcdRst b ∉ s.q) ∧ s.lines.lcdRst = true
  /-- A wait that has begun is at the head of the queue, with at most its own ticks left (rules R31, R105
  and R107). -/
  waiting : s.wact = true → ∃ n ops, s.q = .wait n :: ops ∧ s.dly.toNat ≤ n.val
  /-- Outside a wait the delay counter is 0 (rules R31 and R106). -/
  notWaiting : s.wact = false → s.dly = 0
  /-- In UNINIT nothing is pending (rule R102). -/
  uninitIdle : s.ps = .uninit → s.q = []
  /-- EndInit is pending exactly in INITIALIZING, as the last micro-op (rules R112 and R160). -/
  initializing : s.ps = .initializing ↔ ∃ ops, s.q = ops ++ [.endInit] ∧ MicroOp.endInit ∉ ops
  /-- In READY no EndInit is pending (rule R112). -/
  ready : s.ps = .ready → MicroOp.endInit ∉ s.q
  /-- The ROM has its canonical form (rule R59). -/
  rom : s.cfg.rom.wf = true

/-- A monitor of the waits of a trace. -/
inductive WaitMonitor where
  /-- No wait is open. -/
  | idle
  /-- A wait is open and has `left` ticks left. -/
  | waiting (left : Nat)
  /-- The trace broke a rule: a tick too many or too few, or another event within a wait. -/
  | broken
  deriving DecidableEq, Repr

/-- The monitor after one more event (rule R107): within a wait of `n` there are exactly `n` ticks and no
other event but a Reset, and outside a wait there is no tick (rule R281). -/
def WaitMonitor.next (m : WaitMonitor) (e : Event) : WaitMonitor :=
  match m with
  | .broken => .broken
  | .idle =>
    match e with
    | .waitBegin n => .waiting n.val
    | .tick | .waitEnd => .broken
    | .reset | .accept _ | .fault _ | .lineWrite _ _ | .initDone => .idle
  | .waiting left =>
    match e with
    | .tick => if left = 0 then .broken else .waiting (left - 1)
    | .waitEnd => if left = 0 then .idle else .broken
    | .reset => .idle
    | .waitBegin _ | .accept _ | .fault _ | .lineWrite _ _ | .initDone => .broken

/-- The monitor after a trace. -/
def waitMonitor (es : List Event) : WaitMonitor := es.foldl WaitMonitor.next .idle

/-- The waits of the trace so far agree with the delay counter. -/
def WaitsCounted (s : State) : Prop :=
  waitMonitor s.trace = if s.wact then .waiting s.dly.toNat else .idle

/-- The reference receiver has seen the levels that the lines hold, and performing the queue leaves it
with no partial frame (rule R141). -/
def ReceiverInSync (s : State) : Prop :=
  (receive .rising s.trace).lines = s.lines ∧ (receive .rising (s.trace ++ eventsToCome s)).buf = []

end Sys2Proof.Machine
end

