-- ==== Sys2Proof/Certificates/Slice0/Obligations.lean ====
section
/-! DEFINITION. What the provers are asked to settle. Each statement is about every state, every operand
and every configuration that its hypotheses admit; none is about a program. -/

open Sys2Proof Sys2Proof.Machine

/-! ### Reset -/

/-- The state right after power-on, whatever the configuration: the reset values of the lines (rule R23)
and of everything else that `10_state.md` section 10 gives a value, STATUS reads 0, and the trace holds the
Reset alone. `State.reset` is such a state; that its configuration is the test set TPS is the model's
choice (log 3), on which no statement rests. -/
def Obligations.PowerOnState : Prop :=
  (∃ c, State.reset = State.resetWith c) ∧
  ∀ c : Config,
    (State.resetWith c).lines = { csN := true, scl := false, sda := false, lcdRst := true } ∧
    (State.resetWith c).vpW = 97 ∧ (State.resetWith c).vpH = 69 ∧ (State.resetWith c).vpRot = 0 ∧
    (State.resetWith c).vpColOff = c.colOff ∧ (State.resetWith c).vpRowOff = c.rowOff ∧
    (State.resetWith c).ps = .uninit ∧ (State.resetWith c).win = .closed ∧
    (State.resetWith c).q = [] ∧ (State.resetWith c).dly = 0 ∧ (State.resetWith c).wact = false ∧
    (State.resetWith c).status = 0 ∧ (State.resetWith c).trace = [.reset] ∧
    (State.resetWith c).cfg = c

/-- The Reset step: every piece of the block's state takes its reset value in one step, the configuration
stays, and the one event is Reset, so no line write is emitted (rules R301 and R303). -/
def Obligations.ResetStepRestoresResetValues : Prop :=
  (∀ c : Config, (State.resetWith c).trace = [] ++ [.reset]) ∧
  ∀ s : State, ∃ t, turn .resetInput s = .next t ∧
    t.lines.csN = true ∧ t.lines.scl = false ∧ t.lines.sda = false ∧ t.lines.lcdRst = true ∧
    t.vpRot = 0 ∧ t.vpW = 97 ∧ t.vpH = 69 ∧ t.ps = .uninit ∧ t.win = .closed ∧ t.q = [] ∧
    t.dly = 0 ∧ t.wact = false ∧ t.fIllreq = false ∧ t.fNotinit = false ∧
    t.trace = s.trace ++ [.reset] ∧ t.cfg = s.cfg

/-! ### The sequencer -/

/-- Perform with a line write at the head of the queue (rule R104): the line takes the level, whether or
not it holds it already, the head leaves the queue, one event is emitted, and nothing else changes. -/
def Obligations.PerformWritesLine : Prop :=
  ∀ (s : State) (l : Line) (b : Bool) (ops : List MicroOp), s.q = .setLine l b :: ops →
    ∃ t, turn .block s = .next t ∧
      t.lines.get l = b ∧ (∀ m, m ≠ l → t.lines.get m = s.lines.get m) ∧
      t.trace = s.trace ++ [.lineWrite l b] ∧
      t = { s with lines := t.lines, q := ops, traceRev := t.traceRev }

/-- Perform with a wait at the head of the queue: it begins (rule R105), and when its ticks are counted it
ends (rule R106). -/
def Obligations.PerformBeginsAndEndsWait : Prop :=
  ∀ (s : State) (n : WaitMs) (ops : List MicroOp), s.q = .wait n :: ops →
    (s.wact = false → ∃ t, turn .block s = .next t ∧ t.dly.toNat = n.val ∧
      t.trace = s.trace ++ [.waitBegin n] ∧
      t = { s with dly := t.dly, wact := true, traceRev := t.traceRev }) ∧
    (s.wact = true → s.dly = 0 → ∃ t, turn .block s = .next t ∧
      t.trace = s.trace ++ [.waitEnd] ∧
      t = { s with q := ops, wact := false, traceRev := t.traceRev })

/-- A wait that has begun and has ticks left holds the block and the host, only Tick and Reset lift the
hold, and every trace has exactly `n` ticks and nothing else between `WaitBegin(n)` and its `WaitEnd`
(rule R107). -/
def Obligations.WaitsHoldForTheirTicks : Prop :=
  (∀ (s : State) (n : WaitMs) (ops : List MicroOp), s.q = .wait n :: ops → s.wact = true → s.dly ≠ 0 →
    turn .block s = .next s ∧ turn .host s = .next s ∧
    ∃ t, turn .tickSource s = .next t ∧ t.q = s.q ∧ t.wact = true ∧ t.dly.toNat + 1 = s.dly.toNat) ∧
  ∀ s t : State, MachineInv s → WaitsCounted s → step s = .next t → WaitsCounted t

/-- Perform with EndInit at the head of the queue (rule R108). -/
def Obligations.PerformEndsInit : Prop :=
  ∀ (s : State) (ops : List MicroOp), s.q = .endInit :: ops →
    ∃ t, turn .block s = .next t ∧ t.ps = .ready ∧ t.trace = s.trace ++ [.initDone] ∧
      t = { s with q := ops, ps := .ready, traceRev := t.traceRev }

/-- Tick (rule R281): it counts a wait down by one, and any other tick has no effect. -/
def Obligations.TickCountsDown : Prop :=
  ∀ s : State,
    (s.wact = true → 0 < s.dly.toNat → ∃ t, turn .tickSource s = .next t ∧
      t.dly.toNat = s.dly.toNat - 1 ∧ t.trace = s.trace ++ [.tick] ∧
      t = { s with dly := t.dly, traceRev := t.traceRev }) ∧
    (¬(s.wact = true ∧ 0 < s.dly.toNat) → turn .tickSource s = .next s)

/-- While `Q ≠ []` the host's request is held: the host's turn changes nothing, and no request has an
effect (`40_sequencer.md` section 1). -/
def Obligations.HostIsHeldWhileBusy : Prop :=
  ∀ s : State, s.q ≠ [] →
    turn .host s = .next s ∧ ∀ i : Instr, i.isRequest = true → exec i s = .next s

/-- The micro-ops that are pending are performed in order, none skipped, reordered, merged or cancelled,
in whatever order the agents but the reset input take their turns (rule R110): the events so far together
with the events to come stay the same list. -/
def Obligations.PendingMicroOpsRunInOrder : Prop :=
  (∀ s t : State, MachineInv s → s.q ≠ [] → mover s ≠ .resetInput → step s = .next t →
    t.trace ++ eventsToCome t = s.trace ++ eventsToCome s) ∧
  ∀ s t : State, mover s = .resetInput → step s = .next t → t.q = []

/-- The turns go by the schedule, and by fairness when it is empty: the block when it can, the tick source
when the block is held, the host when it is idle; in a quiescent state, the end of a run, the machine
idles (log 2). The schedule is the model's own (log 1): it makes a statement about every state a statement
about every order of the steps of rule R100. -/
def Obligations.TurnsGoByScheduleOrFairness : Prop :=
  (∀ (s : State) (a : Agent), turn a s = agentTurn a s) ∧
  ∀ s : State, s.sched = [] →
    (s.q = [] → step s = hostTurn s) ∧
    (s.q ≠ [] → s.held = true → step s = .next (tick s)) ∧
    (s.q ≠ [] → s.held = false → step s = .next (perform s)) ∧
    (Quiescent s → step s = .next s)

/-- A step in which the host offers a request executes the decoded instruction: when the bytes at the port
decode to `i`, the step is `exec i` of the state in which those bytes are off the port and the turn is off
the schedule. -/
def Obligations.StepRunsDecodedRequest : Prop :=
  ∀ (s : State) (i : Instr) (rest : List Byte), mover s = .host → s.q = [] →
    decodeRequest s.port = .ok (i, rest) →
    step s = exec i { s with port := rest, sched := s.sched.tail }

/-- The table interpreter executes the decoded records: when the bytes at `TP` decode to a record, running
`k + 1` records is `exec` of that record's instruction and then running `k` (`42_init.md` section 2). -/
def Obligations.InterpreterRunsDecodedRecords : Prop :=
  ∀ (s : State) (r : Record) (rest : List Byte) (k : Nat),
    decodeRecord (s.cfg.rom.bytesFrom s.tp) = .ok (r, rest) →
    ∃ t, exec r.toInstr s = .next t ∧ runRecords (k + 1) s = runRecords k t ∧
      (s.cfg.rom.wf = true → t.cfg.rom.bytesFrom t.tp = rest)

/-! ### Requests -/

/-- WRCMD (rule R136): one COMMAND frame of 29 line writes, which a receiver recovers, and `WIN` closed; in
UNINIT it raises NOTINIT and sends nothing. -/
def Obligations.WrcmdSendsCommandFrame : Prop :=
  ∀ (s : State) (v : Byte), s.q = [] →
    decodeRequest [0x01, v] = .ok (.wrcmd v, []) ∧
    (s.ps ≠ .uninit → exec (.wrcmd v) s =
      .next { s with win := .closed, q := frame false v, traceRev := .accept [0x01, v] :: s.traceRev }) ∧
    (s.ps = .uninit → exec (.wrcmd v) s =
      .next { s with fNotinit := true,
                     traceRev := .fault .notinit :: .accept [0x01, v] :: s.traceRev }) ∧
    (runEvents (frame false v)).length = 29 ∧
    recoveredFrames (runEvents (frame false v)) = [{ dc := false, v := v }] ∧
    linesAfter (frame false v) s.lines =
      { s.lines with csN := true, scl := false, sda := v.getLsbD 0 }

/-- WRDATA (rule R137): one DATA frame whatever `WIN` holds; an open or streaming window is streaming
afterwards, a closed one stays closed; in UNINIT it raises NOTINIT. -/
def Obligations.WrdataSendsDataFrame : Prop :=
  ∀ (s : State) (v : Byte), s.q = [] →
    decodeRequest [0x02, v] = .ok (.wrdata v, []) ∧
    (s.ps ≠ .uninit → exec (.wrdata v) s =
      .next { s with win := (if s.win = .closed then .closed else .streaming), q := frame true v,
                     traceRev := .accept [0x02, v] :: s.traceRev }) ∧
    (s.ps = .uninit → exec (.wrdata v) s =
      .next { s with fNotinit := true,
                     traceRev := .fault .notinit :: .accept [0x02, v] :: s.traceRev }) ∧
    recoveredFrames (runEvents (frame true v)) = [{ dc := true, v := v }] ∧
    (linesAfter (frame true v) s.lines).sda = v.getLsbD 0

/-- WRPIX (rule R140): two DATA frames, the high byte first, with chip-select released between them, so it
sends what `WRDATA c_hi; WRDATA c_lo` sends. -/
def Obligations.WrpixSendsHighThenLowByte : Prop :=
  ∀ (s : State) (c : Color), s.q = [] →
    decodeRequest [0x03, c.extractLsb' 8 8, c.extractLsb' 0 8] = .ok (.wrpix c, []) ∧
    (s.ps ≠ .uninit → exec (.wrpix c) s =
      .next { s with win := (if s.win = .closed then .closed else .streaming),
                     q := frame true (c.extractLsb' 8 8) ++ frame true (c.extractLsb' 0 8),
                     traceRev :=
                       .accept [0x03, c.extractLsb' 8 8, c.extractLsb' 0 8] :: s.traceRev }) ∧
    (s.ps = .uninit → exec (.wrpix c) s =
      .next { s with fNotinit := true,
                     traceRev := .fault .notinit ::
                       .accept [0x03, c.extractLsb' 8 8, c.extractLsb' 0 8] :: s.traceRev }) ∧
    (frame true (c.extractLsb' 8 8) ++ frame true (c.extractLsb' 0 8)).length = 58 ∧
    recoveredFrames (runEvents (frame true (c.extractLsb' 8 8) ++ frame true (c.extractLsb' 0 8))) =
      [{ dc := true, v := c.extractLsb' 8 8 }, { dc := true, v := c.extractLsb' 0 8 }]

/-- SETWIN (rule R201): column-address-set with the two column bytes, row-address-set with the two row
bytes, memory-write; the offsets are added modulo 256, no operand is checked, and `WIN` is open. -/
def Obligations.SetwinProgramsWindow : Prop :=
  ∀ (s : State) (x0 y0 x1 y1 : Byte), s.q = [] →
    decodeRequest [0x04, x0, y0, x1, y1] = .ok (.setwin x0 y0 x1 y1, []) ∧
    (s.ps ≠ .uninit → ∃ ops, exec (.setwin x0 y0 x1 y1) s =
      .next { s with win := .opened, q := ops,
                     traceRev := .accept [0x04, x0, y0, x1, y1] :: s.traceRev } ∧
      ops = frame false s.cfg.cmdCaset ++
        frame true (BitVec.ofNat 8 ((x0.toNat + s.cfg.colOff.toNat) % 256)) ++
        frame true (BitVec.ofNat 8 ((x1.toNat + s.cfg.colOff.toNat) % 256)) ++
        frame false s.cfg.cmdRaset ++
        frame true (BitVec.ofNat 8 ((y0.toNat + s.cfg.rowOff.toNat) % 256)) ++
        frame true (BitVec.ofNat 8 ((y1.toNat + s.cfg.rowOff.toNat) % 256)) ++
        frame false s.cfg.cmdRamwr ∧
      ops.length = 203 ∧
      recoveredFrames (runEvents ops) =
        [{ dc := false, v := s.cfg.cmdCaset }, { dc := true, v := x0 + s.cfg.colOff },
         { dc := true, v := x1 + s.cfg.colOff }, { dc := false, v := s.cfg.cmdRaset },
         { dc := true, v := y0 + s.cfg.rowOff }, { dc := true, v := y1 + s.cfg.rowOff },
         { dc := false, v := s.cfg.cmdRamwr }]) ∧
    (s.ps = .uninit → exec (.setwin x0 y0 x1 y1) s =
      .next { s with fNotinit := true,
                     traceRev := .fault .notinit :: .accept [0x04, x0, y0, x1, y1] :: s.traceRev })

/-- SETROT (rule R206): in the accepting step the rotation is `r mod 4`, width and height are swapped for
odd rotations, and `WIN` is closed; the two frames carry the mode byte of the rotation. In UNINIT it raises
NOTINIT and the viewport stays. -/
def Obligations.SetrotTurnsViewport : Prop :=
  ∀ (s : State) (r : Byte), s.q = [] →
    decodeRequest [0x05, r] = .ok (.setrot r, []) ∧
    (s.ps ≠ .uninit → ∃ t, exec (.setrot r) s = .next t ∧
      t.vpRot.toNat = r.toNat % 4 ∧
      (r.toNat % 2 = 0 → t.vpW = 97 ∧ t.vpH = 69) ∧ (r.toNat % 2 = 1 → t.vpW = 69 ∧ t.vpH = 97) ∧
      t.q = frame false s.cfg.cmdMadctl ++ frame true
        (if r.toNat % 4 = 0 then s.cfg.rotMode.r0 else if r.toNat % 4 = 1 then s.cfg.rotMode.r1
          else if r.toNat % 4 = 2 then s.cfg.rotMode.r2 else s.cfg.rotMode.r3) ∧
      t.q.length = 58 ∧
      t = { s with vpRot := t.vpRot, vpW := t.vpW, vpH := t.vpH, win := .closed, q := t.q,
                   traceRev := .accept [0x05, r] :: s.traceRev }) ∧
    (s.ps = .uninit → exec (.setrot r) s =
      .next { s with fNotinit := true,
                     traceRev := .fault .notinit :: .accept [0x05, r] :: s.traceRev })

/-- INIT is accepted in every protocol state when the block is idle and its table is well-formed: it puts
the reset pulse, `TableExpand(ROM)` as rule R164 writes it, and EndInit in the queue, enters INITIALIZING
and closes the window, and raises no fault; the viewport stays (rule R160). So the
machine's record-by-record interpreter refines the pseudocode of rule R164. `TP` ends where the walk ends;
what it holds then is no value of the spec's, so it is left open here. -/
def Obligations.InitIsAcceptedInEveryState : Prop :=
  decodeRequest [0x06] = .ok (.init, []) ∧
  ∀ s : State, s.q = [] → s.cfg.rom.wf = true → romWellFormed s.cfg.rom = true →
    ∃ table tp, tableExpand s.cfg.rom = some table ∧
      exec .init s = .next { s with
        ps := .initializing, win := .closed, tp := tp,
        q := (if s.cfg.hasRst then
            [.setLine .lcdRst true, .wait 500, .setLine .lcdRst false, .wait 500,
             .setLine .lcdRst true, .wait 500] else []) ++ table ++ [.endInit],
        traceRev := .accept [0x06] :: s.traceRev }

/-- INITREC (rule R165): the command frame and the argument frames, no wait; `TP` advances by `2 + n`. -/
def Obligations.InitrecSendsItsFrames : Prop :=
  ∀ (s : State) (cmd : Byte) (args : List Byte), args.length ≤ 127 →
    encode (.initrec cmd args) = cmd :: BitVec.ofNat 8 args.length :: args ∧
    argcFlag (BitVec.ofNat 8 args.length) = false ∧
    exec (.initrec cmd args) s =
      .next { s with q := s.q ++ (frame false cmd ++ args.flatMap (frame true)),
                     tp := s.tp + (2 + args.length) }

/-- INITREC_D (rule R166): as INITREC and then one wait, of 500 ms when the delay byte is 255 and of that
many milliseconds otherwise; `TP` advances by `3 + n`. -/
def Obligations.InitrecDSendsItsFramesAndWaits : Prop :=
  ∀ (s : State) (cmd : Byte) (args : List Byte) (d : Byte), args.length ≤ 127 →
    encode (.initrecD cmd args d) = cmd :: BitVec.ofNat 8 (128 + args.length) :: (args ++ [d]) ∧
    argcFlag (BitVec.ofNat 8 (128 + args.length)) = true ∧
    ∃ n : WaitMs, n.val = (if d.toNat = 255 then 500 else d.toNat) ∧
      exec (.initrecD cmd args d) s =
        .next { s with q := s.q ++ (frame false cmd ++ args.flatMap (frame true) ++ [.wait n]),
                       tp := s.tp + (3 + args.length) }

/-- What the requests leave unchanged when they give a next state: the lines, the delay counter, the
configuration and every byte of the ROM, and what the environment has still to do. The viewport may change
in SETROT alone, `PS` and `TP` in INIT alone; the fault bit F_ILLREQ in none, F_NOTINIT in UNINIT alone; the
trace only grows. -/
def Obligations.RequestsKeepTheRest : Prop :=
  ∀ (i : Instr) (s t : State), i.isRequest = true → exec i s = .next t →
    t.lines = s.lines ∧ t.dly = s.dly ∧ t.wact = s.wact ∧ t.cfg = s.cfg ∧
    (∀ a, t.memRead a = s.memRead a) ∧ t.port = s.port ∧ t.calls = s.calls ∧ t.sched = s.sched ∧
    t.fIllreq = s.fIllreq ∧ (∃ es, t.trace = s.trace ++ es) ∧
    ((∀ r, i ≠ .setrot r) → t.vpW = s.vpW ∧ t.vpH = s.vpH ∧ t.vpRot = s.vpRot) ∧
    (i ≠ .init → t.ps = s.ps ∧ t.tp = s.tp) ∧
    (s.ps ≠ .uninit ∨ i = .init → t.fNotinit = s.fNotinit)

/-- What the table records leave unchanged: everything but the expansion that they extend and `TP`. -/
def Obligations.RecordsKeepTheRest : Prop :=
  ∀ (r : Record) (s t : State), exec r.toInstr s = .next t →
    (∃ ops, t = { s with q := s.q ++ ops, tp := t.tp } ∧ MicroOp.endInit ∉ ops ∧
      ∀ b, MicroOp.setLine .lcdRst b ∉ ops) ∧
    ∀ a, t.memRead a = s.memRead a

/-! ### Faults -/

/-- ILLREQ (rules R81 and R271): a request whose first byte is no opcode has length 1, is not
executed, sets F_ILLREQ and emits Accept with the byte and then Fault(ILLREQ), whatever `PS` holds; it
raises no second fault. -/
def Obligations.UndefinedOpcodeRaisesIllreq : Prop :=
  ∀ (s : State) (b : Byte) (rest : List Byte), mover s = .host → s.q = [] → s.port = b :: rest →
    b.toNat = 0 ∨ 7 ≤ b.toNat →
    ∃ t, step s = .next t ∧ t.trace = s.trace ++ [.accept [b], .fault .illreq] ∧
      t = { s with fIllreq := true, traceRev := t.traceRev, port := rest, sched := s.sched.tail }

/-- NOTINIT (rule R272): in UNINIT every legal request but INIT sets F_NOTINIT and emits Fault(NOTINIT),
after the Accept; nothing else changes. -/
def Obligations.RequestBeforeInitRaisesNotinit : Prop :=
  ∀ (s : State) (i : Instr), s.q = [] → s.ps = .uninit → i.isRequest = true → i ≠ .init →
    ∃ t, exec i s = .next t ∧ t.trace = s.trace ++ [.accept (encode i), .fault .notinit] ∧
      t = { s with fNotinit := true, traceRev := t.traceRev }

/-- The response to a fault (rule R273): a step that emits a Fault event writes no line, no viewport
register, not `PS` and not `WIN`; `Q` was empty and stays empty, so every earlier request had completed, no
later one has begun, and the block is ready for the next. -/
def Obligations.FaultedRequestIsDropped : Prop :=
  ∀ (s t : State) (es : List Event) (k : FaultKind), step s = .next t →
    t.trace = s.trace ++ es → Event.fault k ∈ es →
    t.lines = s.lines ∧ t.vpW = s.vpW ∧ t.vpH = s.vpH ∧ t.vpRot = s.vpRot ∧ t.ps = s.ps ∧
    t.win = s.win ∧ s.q = [] ∧ t.q = []

/-- The fault bits are sticky (rule R275): only Reset clears them, and the trace keeps every event, the
Fault events among them. -/
def Obligations.FaultBitsAreSticky : Prop :=
  ∀ s t : State, step s = .next t →
    (mover s ≠ .resetInput →
      (s.fIllreq = true → t.fIllreq = true) ∧ (s.fNotinit = true → t.fNotinit = true)) ∧
    (mover s = .resetInput → t.fIllreq = false ∧ t.fNotinit = false) ∧
    ∃ es, t.trace = s.trace ++ es

/-- The one stop of the machine. The spec refuses a block whose table is not well-formed when it is built
(`30_encoding.md` section 2); that the model has such a block, and refuses the INIT offered to it, is the
model's choice (log 8). That no step faults is the model's too (log 2): the spec's two faults are recorded
and the block goes on, so the type of faults is empty. -/
def Obligations.OnlyIllFormedTableStops : Prop :=
  ∀ s : State,
    (∀ f, step s ≠ .fault f) ∧
    (∀ r, step s = .refused r → r = .tableIllFormed ∧ Offers s .init ∧
      (s.cfg.rom.wf = true → romWellFormed s.cfg.rom = false)) ∧
    (s.cfg.rom.wf = true → romWellFormed s.cfg.rom = false → Offers s .init →
      step s = .refused .tableIllFormed)

/-! ### Whole-machine rules -/

/-- The viewport registers are written only by SETROT (and by Reset), and the offsets are the parameters in
every state (rule R25). -/
def Obligations.OnlySetrotWritesViewport : Prop :=
  ∀ s t : State, step s = .next t →
    (t.vpW ≠ s.vpW ∨ t.vpH ≠ s.vpH ∨ t.vpRot ≠ s.vpRot →
      mover s = .resetInput ∨ ∃ r, Offers s (.setrot r)) ∧
    t.vpColOff = s.cfg.colOff ∧ t.vpRowOff = s.cfg.rowOff

/-- The viewport's width and height follow its rotation (rule R26), from reset and in every step. -/
def Obligations.ViewportFollowsRotation : Prop :=
  (∀ c : Config, ViewportInv (State.resetWith c)) ∧
  ∀ s t : State, ViewportInv s → step s = .next t → ViewportInv t

/-- No step, not even Reset, changes the configuration, and no byte of the ROM ever changes (rule R303). -/
def Obligations.ConfigurationIsConstant : Prop :=
  ∀ s t : State, step s = .next t → t.cfg = s.cfg ∧ ∀ a, t.memRead a = s.memRead a

/-- The protocol state machine (`40_sequencer.md` section 4): the three transitions happen, and no other step writes `PS`. An
EndInit is performed in INITIALIZING only. -/
def Obligations.ProtocolStateTransitions : Prop :=
  ∀ s t : State, MachineInv s → step s = .next t →
    (mover s = .resetInput → t.ps = .uninit) ∧
    (Offers s .init → t.ps = .initializing) ∧
    (mover s = .block → s.q.head? = some .endInit → s.ps = .initializing ∧ t.ps = .ready) ∧
    (¬mover s = .resetInput → ¬Offers s .init →
      ¬(mover s = .block ∧ s.q.head? = some .endInit) → t.ps = s.ps)

/-- The addressing-window phase (rule R113): what each accepted request makes of `WIN`, CLOSED at Reset, and
no other step writes it; the frames that a data request sends do not depend on it. -/
def Obligations.WindowPhaseTransitions : Prop :=
  (∀ (s : State) (w : WindowPhase) (i : Instr), (∃ v, i = .wrdata v) ∨ (∃ c, i = .wrpix c) →
    ∃ t u, exec i s = .next t ∧ exec i { s with win := w } = .next u ∧ u.q = t.q) ∧
  ∀ s t : State, step s = .next t →
    (mover s = .resetInput → t.win = .closed) ∧
    (∀ i, Offers s i → s.ps ≠ .uninit ∨ i = .init →
      ((∃ x0 y0 x1 y1, i = .setwin x0 y0 x1 y1) → t.win = .opened) ∧
      ((∃ c, i = .wrpix c) ∨ (∃ v, i = .wrdata v) →
        (s.win = .closed → t.win = .closed) ∧ (s.win ≠ .closed → t.win = .streaming)) ∧
      ((∃ v, i = .wrcmd v) ∨ (∃ r, i = .setrot r) ∨ i = .init → t.win = .closed)) ∧
    (t.win ≠ s.win → mover s = .resetInput ∨ ∃ i, Offers s i ∧ (s.ps ≠ .uninit ∨ i = .init))

/-- With an empty queue the clock is low and chip-select released (`10_state.md` section 9), in every state that meets the
invariant. -/
def Obligations.IdleBusLevels : Prop :=
  ∀ s : State, MachineInv s → s.q = [] → s.lines.scl = false ∧ s.lines.csN = true

/-- The invariant holds after reset, whatever the configuration, as do the two invariants of the trace. -/
def Obligations.InvariantHoldsAtReset : Prop :=
  ∀ c : Config, c.rom.wf = true →
    MachineInv (State.resetWith c) ∧ WaitsCounted (State.resetWith c) ∧
    ReceiverInSync (State.resetWith c)

/-- Every step keeps the invariant. -/
def Obligations.EveryStepKeepsInvariant : Prop :=
  ∀ s t : State, MachineInv s → step s = .next t → MachineInv t

/-- Without HAS_RST there is no LCD_RST line: an observer reads none, and no step of a state that meets the
invariant emits a write of it (rule R22). -/
def Obligations.NoResetLineWithoutHasRst : Prop :=
  ∀ s t : State, MachineInv s → s.cfg.hasRst = false → step s = .next t →
    s.readLine .lcdRst = none ∧
    ∀ es b, t.trace = s.trace ++ es → Event.lineWrite .lcdRst b ∉ es

/-- With an empty schedule, which is fair turns and no Reset (log 1), what is in the queue completes
(`40_sequencer.md` section 5, `70_reset_and_hazards.md` section 4): after exactly one step for each line
write and EndInit and `2 + n` for each wait of `n`, the queue is empty, the lines hold their last levels,
and the events of the queue are in the trace in order. Where the wait at the head has begun already, what is
left of it is its ticks and its end. -/
def Obligations.EveryQueueCompletes : Prop :=
  (∀ s : State, s.sched = [] → s.wact = false → s.dly = 0 →
    runFor (opSteps s.q) s = .next (completed s)) ∧
  ∀ (s : State) (n : WaitMs) (ops : List MicroOp), s.sched = [] → s.wact = true → s.q = .wait n :: ops →
    runFor (s.dly.toNat + 1 + opSteps ops) s =
      .next (completed { s with
        q := ops, dly := 0, wact := false, traceRev := (waitTail s.dly.toNat).reverse ++ s.traceRev })

/-- Two INIT requests in sequence leave the same events, ticks included, one after the other
(`42_init.md` section 2), with an empty schedule: fair turns and no Reset (log 1). -/
def Obligations.InitTwiceGivesSameEvents : Prop :=
  ∀ s : State, MachineInv s → s.q = [] → s.sched = [] → s.calls = [] → s.port = [0x06, 0x06] →
    romWellFormed s.cfg.rom = true →
    ∃ ops k t, expandInit s.cfg = some ops ∧ runFor k s = .next t ∧ Quiescent t ∧ t.ps = .ready ∧
      t.trace = s.trace ++ (.accept [0x06] :: runEvents ops) ++ (.accept [0x06] :: runEvents ops)

/-! ### Frames and the receiver -/

/-- The bit serializer (`41_frame.md` section 1): a byte leaves most significant bit first, each bit set on SDA before its clock pulse, and
afterwards SCL is low and SDA holds bit 0. -/
def Obligations.SendByteIsMsbFirst : Prop :=
  ∀ (v : Byte) (l : Lines),
    (sendByte v).length = 24 ∧
    (∀ j, j < 8 →
      (sendByte v)[3 * j]? = some (.setLine .sda (v.getLsbD (7 - j))) ∧
      (sendByte v)[3 * j + 1]? = some (.setLine .scl true) ∧
      (sendByte v)[3 * j + 2]? = some (.setLine .scl false)) ∧
    (linesAfter (sendByte v) l).scl = false ∧ (linesAfter (sendByte v) l).sda = v.getLsbD 0

/-- Rule R134: a frame is 29 line writes, in this order, and from a low clock every `SCL <- 1` of it is a
rising edge while CS_N is 0. -/
def Obligations.FrameIsTwentyNineWrites : Prop :=
  ∀ (dc : Bool) (v : Byte),
    (frame dc v).length = 29 ∧
    (frame dc v).count (.setLine .csN false) = 1 ∧ (frame dc v).count (.setLine .csN true) = 1 ∧
    (frame dc v).count (.setLine .scl true) = 9 ∧ (frame dc v).count (.setLine .scl false) = 9 ∧
    (frame dc v).count (.setLine .sda false) + (frame dc v).count (.setLine .sda true) = 9 ∧
    (frame dc v)[0]? = some (.setLine .csN false) ∧ (frame dc v)[1]? = some (.setLine .sda dc) ∧
    (frame dc v)[2]? = some (.setLine .scl true) ∧ (frame dc v)[3]? = some (.setLine .scl false) ∧
    (∀ j, j < 8 →
      (frame dc v)[4 + 3 * j]? = some (.setLine .sda (v.getLsbD (7 - j))) ∧
      (frame dc v)[5 + 3 * j]? = some (.setLine .scl true) ∧
      (frame dc v)[6 + 3 * j]? = some (.setLine .scl false)) ∧
    (frame dc v)[28]? = some (.setLine .csN true) ∧
    ∀ (k : Nat) (l : Lines), l.scl = false → (frame dc v)[k]? = some (.setLine .scl true) →
      (linesAfter ((frame dc v).take k) l).scl = false ∧
      (linesAfter ((frame dc v).take k) l).csN = false

/-- Frame fidelity (`41_frame.md` section 3): from a state in which the receiver is in step with the lines, a request
that is accepted and performed to its end adds to the recovered frames exactly the frames of its
expansion, in order. -/
def Obligations.FramesAreRecoveredExactly : Prop :=
  ∀ (s t : State) (i : Instr), MachineInv s → ReceiverInSync s → s.q = [] → i.isRequest = true →
    s.ps ≠ .uninit ∨ i = .init → exec i s = .next t →
    recoveredFrames (t.trace ++ runEvents t.q) = recoveredFrames s.trace ++ busFrames s.cfg i

/-- The same of whole runs: any sequence of requests that the host offers to a
READY block is carried out to the end, with an empty schedule, which is fair turns and no Reset (log 1), and
the receiver recovers exactly the frames of the requests, in order. -/
def Obligations.RequestSequencesReachTheReceiver : Prop :=
  ∀ (s : State) (is : List Instr), MachineInv s → ReceiverInSync s → s.ps = .ready → s.q = [] →
    s.sched = [] → s.calls = [] → romWellFormed s.cfg.rom = true →
    (∀ i ∈ is, i.isRequest = true) → s.port = requestBytes is →
    ∃ k t, runFor k s = .next t ∧ Quiescent t ∧ t.ps = .ready ∧
      recoveredFrames t.trace = recoveredFrames s.trace ++ is.flatMap (busFrames s.cfg)

/-- Every step keeps the receiver in step with the lines. -/
def Obligations.ReceiverStaysInSync : Prop :=
  ∀ s t : State, MachineInv s → ReceiverInSync s → step s = .next t → ReceiverInSync t

/-- The sampling edge does not matter (rule R142): in a frame the write after each `SCL <- 1` is `SCL <- 0`,
so no SDA write lies between the two edges, and a receiver that samples on the falling edge of SCL recovers
the same frames of an accepted request. -/
def Obligations.SamplingEdgeDoesNotMatter : Prop :=
  (∀ (dc : Bool) (v : Byte) (k : Nat), (frame dc v)[k]? = some (.setLine .scl true) →
    (frame dc v)[k + 1]? = some (.setLine .scl false)) ∧
  ∀ (s t : State) (i : Instr), s.q = [] → i.isRequest = true → exec i s = .next t →
    (receive .falling (runEvents t.q)).frames = (receive .rising (runEvents t.q)).frames ∧
    (receive .falling (runEvents t.q)).lines = (receive .rising (runEvents t.q)).lines

/-- A Reset drops a partial frame: the receiver's buffer is empty after it, its levels are the reset
levels, and no frame is recovered for it (`70_reset_and_hazards.md` section 1, `41_frame.md` section 3). -/
def Obligations.ResetDropsPartialFrame : Prop :=
  ∀ es : List Event,
    receive .rising (es ++ [.reset]) =
      { lines := { csN := true, scl := false, sda := false, lcdRst := true }, buf := [],
        frames := recoveredFrames es }

/-- The reset pulse is three writes of LCD_RST, 1, 0, 1, each followed by a wait of 500, after which the
line is 1; without a reset line it is empty (rule R161). From a high line two of the writes change the
level, from a low line all three (rule R163). -/
def Obligations.ResetPulseWritesThreeLevels : Prop :=
  ∀ (p : Params) (l : Lines),
    (p.hasRst = false → resetPulse p = []) ∧
    (p.hasRst = true →
      resetPulse p = [.setLine .lcdRst true, .wait 500, .setLine .lcdRst false, .wait 500,
        .setLine .lcdRst true, .wait 500] ∧
      (linesAfter (resetPulse p) l).lcdRst = true ∧
      (l.lcdRst = true → levelTrace l ((runEvents (resetPulse p)).filter Event.isLineWrite) = [.lineWrite .lcdRst false, .lineWrite .lcdRst true]) ∧
      (l.lcdRst = false → levelTrace l ((runEvents (resetPulse p)).filter Event.isLineWrite) =
        [.lineWrite .lcdRst true, .lineWrite .lcdRst false, .lineWrite .lcdRst true]))

/-! ### The init table -/

/-- A table is well-formed exactly when its walk never leaves the ROM, and the bytes after the last record
are never read (`30_encoding.md` section 2). The spec refuses a block with an ill-formed table when it is
built; that the model refuses its INIT is the model's choice (log 8). -/
def Obligations.WellFormedTablesAreThoseThatExpand : Prop :=
  (∀ rom : Memory, rom.wf = true →
    (romWellFormed rom = true ↔ ∃ ops, tableExpand rom = some ops)) ∧
  (∀ bs junk : List Byte, romWellFormed (Memory.ofBytes bs) = true →
    romWellFormed (Memory.ofBytes (bs ++ junk)) = true ∧
    tableExpand (Memory.ofBytes (bs ++ junk)) = tableExpand (Memory.ofBytes bs)) ∧
  ∀ s : State, s.q = [] → s.cfg.rom.wf = true → romWellFormed s.cfg.rom = false →
    exec .init s = .refused .tableIllFormed

/-- A table of any records, up to 255 of them, is well-formed and expands to the records' frames and waits,
each record's command first, then its arguments, then its wait (`42_init.md` section 2,
`30_encoding.md` section 2). -/
def Obligations.TablesOfRecordsExpandInOrder : Prop :=
  ∀ rs : List Record, rs.length ≤ 255 → (∀ r ∈ rs, r.args.length ≤ 127) →
    romWellFormed (Memory.ofBytes (tableImage rs)) = true ∧
    tableExpand (Memory.ofBytes (tableImage rs)) = some (rs.flatMap (fun r =>
      frame false r.cmd ++ r.args.flatMap (frame true) ++ delayOps r.delay))

/-- INIT with the fixed table (rule R183): the events in order, the number of micro-ops, and the frames that
a receiver recovers, for every CONTRAST_ARGS of at most 127 bytes and with or without a reset line. The image has
`24 + length(CONTRAST_ARGS)` bytes and is well-formed. -/
def Obligations.FixedTableExpansion : Prop :=
  ∀ p : Params, p.wf = true →
    (Config.ofParams p).rom.romLen = 24 + p.contrastArgs.length ∧
    (Config.ofParams p).rom.wf = true ∧ romWellFormed (Config.ofParams p).rom = true ∧
    ∃ ops, expandInit (Config.ofParams p) = some ops ∧
      ops = (if p.hasRst then
          [.setLine .lcdRst true, .wait 500, .setLine .lcdRst false, .wait 500,
           .setLine .lcdRst true, .wait 500] else []) ++
        frame false p.cmdContrast ++ p.contrastArgs.flatMap (frame true) ++
        frame false p.cmdSlpout ++ [.wait 10] ++ frame false p.cmdNoron ++ [.wait 10] ++
        frame false p.cmdInvoff ++ [.wait 10] ++ frame false p.cmdIdmoff ++ [.wait 10] ++
        frame false p.cmdMadctl ++ frame true 0x00 ++ frame false p.cmdColmod ++ frame true 0x05 ++
        frame false p.cmdDispon ++ [.wait 500] ++ [.endInit] ∧
      ops.length = (10 + p.contrastArgs.length) * 29 + 5 + 1 + (if p.hasRst then 6 else 0) ∧
      recoveredFrames (runEvents ops) =
        [.command p.cmdContrast] ++ p.contrastArgs.map .data ++
        [.command p.cmdSlpout, .command p.cmdNoron, .command p.cmdInvoff, .command p.cmdIdmoff,
         .command p.cmdMadctl, .data 0x00, .command p.cmdColmod, .data 0x05, .command p.cmdDispon]

/-! ### Encodings -/

/-- Words of every family, written out from the spec's encodings, decode to the instructions they stand
for. -/
def Obligations.WordsDecodeToTheirInstructions : Prop :=
  decodeRequest [0x01, 0x2A] = .ok (.wrcmd 0x2A, []) ∧
  decodeRequest [0x02, 0xA5] = .ok (.wrdata 0xA5, []) ∧
  decodeRequest [0x03, 0xF8, 0x00] = .ok (.wrpix 0xF800, []) ∧
  decodeRequest [0x04, 0x03, 0x04, 0x05, 0x06] = .ok (.setwin 0x03 0x04 0x05 0x06, []) ∧
  decodeRequest [0x05, 0x05] = .ok (.setrot 0x05, []) ∧
  decodeRequest [0x06] = .ok (.init, []) ∧
  decodeRecord [0x3A, 0x01, 0x05] = .ok ({ cmd := 0x3A, args := [0x05], delay := none }, []) ∧
  decodeRecord [0xB1, 0x82, 0x01, 0x02, 0x00] =
    .ok ({ cmd := 0xB1, args := [0x01, 0x02], delay := some 0x00 }, [])

/-- Decoding and encoding agree: every well-formed instruction, with every operand at every value that the
encoding admits, is what its bytes decode to, and the bytes after it are left over. -/
def Obligations.DecodeOfEncodeIsIdentity : Prop :=
  (∀ (i : Instr) (rest : List Byte), i.isRequest = true → decodeRequest (encode i ++ rest) = .ok (i, rest)) ∧
  ∀ (r : Record) (rest : List Byte), r.toInstr.wf = true →
    decodeRecord (encode r.toInstr ++ rest) = .ok (r, rest)

/-- Every byte string has one reading: what decodes to an instruction begins with that instruction's bytes,
the instruction is well-formed, and the rest is left over. -/
def Obligations.EncodeOfDecodeIsIdentity : Prop :=
  (∀ (bs : List Byte) (i : Instr) (rest : List Byte), decodeRequest bs = .ok (i, rest) →
    i.isRequest = true ∧ i.wf = true ∧ encode i ++ rest = bs) ∧
  ∀ (bs : List Byte) (r : Record) (rest : List Byte), decodeRecord bs = .ok (r, rest) →
    r.toInstr.wf = true ∧ encode r.toInstr ++ rest = bs

/-- The length of a request is a function of its first byte, that of a record of its argument-count byte; an
undefined opcode is a request of one byte (rule R84). -/
def Obligations.LengthsFollowFirstBytes : Prop :=
  (∀ (bs : List Byte) (i : Instr) (rest : List Byte), decodeRequest bs = .ok (i, rest) →
    ∃ op, bs.head? = some op ∧ bs.length = requestLen op + rest.length) ∧
  (∀ (bs : List Byte) (r : Record) (rest : List Byte), decodeRecord bs = .ok (r, rest) →
    ∃ argc, bs[1]? = some argc ∧ bs.length = recLen argc + rest.length ∧
      recLen argc = 2 + argc.toNat % 128 + argc.toNat / 128) ∧
  ∀ op : Byte, op.toNat = 0 ∨ 7 ≤ op.toNat → requestLen op = 1

/-- Request assembly (`30_encoding.md` section 6), for all six mnemonics and `.byte`: operands that fit their
widths assemble to the request's bytes, one that does not is an error, and so is every other mnemonic and
every other number of operands. Stated of the operand lists that the line's text parses to. -/
def Obligations.RequestAssemblyChecksWidths : Prop :=
  (∀ n : Nat, assembleRequest ['w', 'r', 'p', 'i', 'x'] [n] =
    if n < 65536 then some [0x03, BitVec.ofNat 8 (n / 256), BitVec.ofNat 8 n] else none) ∧
  (∀ n : Nat, assembleRequest ['w', 'r', 'c', 'm', 'd'] [n] =
    if n < 256 then some [0x01, BitVec.ofNat 8 n] else none) ∧
  (∀ n : Nat, assembleRequest ['w', 'r', 'd', 'a', 't', 'a'] [n] =
    if n < 256 then some [0x02, BitVec.ofNat 8 n] else none) ∧
  (∀ n : Nat, assembleRequest ['s', 'e', 't', 'r', 'o', 't'] [n] =
    if n < 256 then some [0x05, BitVec.ofNat 8 n] else none) ∧
  (∀ x0 y0 x1 y1 : Nat, assembleRequest ['s', 'e', 't', 'w', 'i', 'n'] [x0, y0, x1, y1] =
    if x0 < 256 ∧ y0 < 256 ∧ x1 < 256 ∧ y1 < 256 then
      some [0x04, BitVec.ofNat 8 x0, BitVec.ofNat 8 y0, BitVec.ofNat 8 x1, BitVec.ofNat 8 y1]
    else none) ∧
  assembleRequest ['i', 'n', 'i', 't'] [] = some [0x06] ∧
  (∀ n : Nat, assembleRequest ['.', 'b', 'y', 't', 'e'] [n] =
    if n < 256 then some [BitVec.ofNat 8 n] else none) ∧
  (∀ (m : List Char) (ops : List Nat) (bs : List Byte), assembleRequest m ops = some bs →
    ((∃ i, decodeRequest bs = .ok (i, [])) ∨ ∃ b, bs = [b] ∧ m = ['.', 'b', 'y', 't', 'e']) ∧
    ((∃ n, ops = [n] ∧ (m = ['w', 'r', 'c', 'm', 'd'] ∨ m = ['w', 'r', 'd', 'a', 't', 'a'] ∨
        m = ['w', 'r', 'p', 'i', 'x'] ∨ m = ['s', 'e', 't', 'r', 'o', 't'] ∨
        m = ['.', 'b', 'y', 't', 'e'])) ∨
      (∃ x0 y0 x1 y1, ops = [x0, y0, x1, y1] ∧ m = ['s', 'e', 't', 'w', 'i', 'n']) ∨
      (ops = [] ∧ m = ['i', 'n', 'i', 't'])))

/-! ### Operands, STATUS -/

/-- The layout of STATUS (`10_state.md` section 6). -/
def Obligations.StatusLayout : Prop :=
  ∀ s : State,
    (s.status.extractLsb' 0 2).toNat = (match s.ps with | .uninit => 0 | .initializing => 1 | .ready => 2) ∧
    (s.status.getLsbD 2 = true ↔ s.q ≠ []) ∧
    s.status.getLsbD 3 = s.fIllreq ∧ s.status.getLsbD 4 = s.fNotinit ∧
    (s.status.extractLsb' 5 2).toNat = (match s.win with | .closed => 0 | .opened => 1 | .streaming => 2) ∧
    s.status.getLsbD 7 = false

/-! ### The host -/

/-- packColor565 (rule R231): the formula, read as numbers, and the three fields side by side. -/
def Obligations.PackColorIsFieldConcat : Prop :=
  ∀ r g b : Byte,
    (packColor565 r g b).toNat =
      ((r.toNat &&& 0xF8) <<< 8) ||| ((g.toNat &&& 0xFC) <<< 3) ||| (b.toNat >>> 3) ∧
    packColor565 r g b = r.extractLsb' 3 5 ++ g.extractLsb' 2 6 ++ b.extractLsb' 3 5

/-- setPixel (rule R232): inside the viewport one single-point window and one pixel, outside it no
request. -/
def Obligations.SetPixelDrawsInsideOnly : Prop :=
  ∀ (vpW vpH : Byte) (x y : Int) (c : Color),
    (0 ≤ x ∧ x < vpW.toNat ∧ 0 ≤ y ∧ y < vpH.toNat → ∃ bx by' : Byte, (bx.toNat : Int) = x ∧
      (by'.toNat : Int) = y ∧ setPixelRequests vpW vpH x y c = [.setwin bx by' bx by', .wrpix c]) ∧
    (¬(0 ≤ x ∧ x < vpW.toNat ∧ 0 ≤ y ∧ y < vpH.toNat) → setPixelRequests vpW vpH x y c = [])

/-- horizontalRun (rule R233) and verticalRun (rule R234): the run is clamped to the viewport, its window
spans exactly the pixels it writes, and a run that starts outside or has no length issues no request. -/
def Obligations.RunsAreClampedToViewport : Prop :=
  ∀ (vpW vpH : Byte) (x y len : Int) (c : Color),
    (¬(0 ≤ x ∧ x < vpW.toNat ∧ 0 ≤ y ∧ y < vpH.toNat ∧ 0 < len) →
      horizontalRunRequests vpW vpH x y len c = [] ∧ verticalRunRequests vpW vpH x y len c = []) ∧
    (0 ≤ x ∧ x < vpW.toNat ∧ 0 ≤ y ∧ y < vpH.toNat ∧ 0 < len →
      (∃ (n : Nat) (bx by' ex : Byte), (n : Int) = min len (vpW.toNat - x) ∧
        (bx.toNat : Int) = x ∧ (by'.toNat : Int) = y ∧ (ex.toNat : Int) = x + n - 1 ∧
        horizontalRunRequests vpW vpH x y len c =
          .setwin bx by' ex by' :: List.replicate n (.wrpix c)) ∧
      ∃ (n : Nat) (bx by' ey : Byte), (n : Int) = min len (vpH.toNat - y) ∧
        (bx.toNat : Int) = x ∧ (by'.toNat : Int) = y ∧ (ey.toNat : Int) = y + n - 1 ∧
        verticalRunRequests vpW vpH x y len c =
          .setwin bx by' bx ey :: List.replicate n (.wrpix c))

/-- fillRect (rule R235) and fillScreen (rule R236): the window ends one beyond the clamped rectangle, the
stream has `(w + 1) × (h + 1)` pixels in descending order, and a full screen is 6860 pixels at every
rotation. -/
def Obligations.FillRectStreamsExtraRowAndColumn : Prop :=
  (∀ (vpW vpH : Byte) (x y w h : Int) (c : Color),
    (¬(0 ≤ x ∧ x < vpW.toNat ∧ 0 ≤ y ∧ y < vpH.toNat ∧ 0 ≤ w ∧ 0 ≤ h) →
      fillRectRequests vpW vpH x y w h c = []) ∧
    (0 ≤ x ∧ x < vpW.toNat ∧ 0 ≤ y ∧ y < vpH.toNat ∧ 0 ≤ w ∧ 0 ≤ h →
      ∃ (w' h' : Nat) (bx by' ex ey : Byte),
        (w' : Int) = (if x + w - 1 ≥ vpW.toNat then vpW.toNat - x else w) ∧
        (h' : Int) = (if y + h - 1 ≥ vpH.toNat then vpH.toNat - y else h) ∧
        (bx.toNat : Int) = x ∧ (by'.toNat : Int) = y ∧ (ex.toNat : Int) = x + w' ∧
        (ey.toNat : Int) = y + h' ∧
        fillRectRequests vpW vpH x y w h c =
          .setwin bx by' ex ey :: List.replicate ((w' + 1) * (h' + 1)) (.wrpix c))) ∧
  (∀ (w h k : Nat), k < (w + 1) * (h + 1) →
    (fillOrder w h)[k]? = some (h - k / (w + 1), w - k % (w + 1))) ∧
  ∀ (s : State) (c : Color), ViewportInv s →
    fillScreenRequests s.vpW s.vpH c = fillRectRequests s.vpW s.vpH 0 0 s.vpW.toNat s.vpH.toNat c ∧
    fillScreenRequests s.vpW s.vpH c =
      .setwin 0 0 s.vpW s.vpH :: List.replicate 6860 (.wrpix c)

/-- The host takes up its next call only when the block is idle and no request is pending, and then offers
the requests of the call, computed from the viewport of that moment (`45_host.md` section 1): those of the
primitives, with invertDisplay and setRotation written out, raw bytes as they are, and INIT for init(),
after which it holds every later call until PS is READY. That taking a call up, and ending the hold, is a
silent turn of the host's own is the model's choice (log 10). -/
def Obligations.HostComputesCallFromViewport : Prop :=
  (∀ (s : State) (call : HostCall) (cs : List HostCall), mover s = .host → s.q = [] → s.port = [] →
    s.calls = call :: cs →
    ((∀ bs, call ≠ .raw bs) → call ≠ .init → call ≠ .awaitReady →
      step s = .next { s with
        port := (callRequests s.cfg.toParams s.vpW s.vpH call).flatMap encode, calls := cs,
        sched := s.sched.tail }) ∧
    (∀ bs, call = .raw bs → step s = .next { s with port := bs, calls := cs, sched := s.sched.tail }) ∧
    (call = .init →
      step s = .next { s with port := [0x06], calls := .awaitReady :: cs, sched := s.sched.tail }) ∧
    (call = .awaitReady → s.ps = .ready →
      step s = .next { s with calls := cs, sched := s.sched.tail }) ∧
    (call = .awaitReady → s.ps ≠ .ready → step s = .next { s with sched := s.sched.tail })) ∧
  (∀ s t : State, step s = .next t → t.calls ≠ s.calls → mover s = .host ∧ s.q = [] ∧ s.port = []) ∧
  ∀ (p : Params) (vpW vpH : Byte),
    (∀ flag, callRequests p vpW vpH (.invertDisplay flag) =
      [.wrcmd (if flag then p.cmdInvon else p.cmdInvoff)]) ∧
    (∀ r : Int, ∃ b : Byte, (b.toNat : Int) = r % 4 ∧
      callRequests p vpW vpH (.setRotation r) = [.setrot b]) ∧
    (∀ x y c, callRequests p vpW vpH (.setPixel x y c) = setPixelRequests vpW vpH x y c) ∧
    (∀ x y len c, callRequests p vpW vpH (.horizontalRun x y len c) =
      horizontalRunRequests vpW vpH x y len c) ∧
    (∀ x y len c, callRequests p vpW vpH (.verticalRun x y len c) =
      verticalRunRequests vpW vpH x y len c) ∧
    (∀ x y w h c, callRequests p vpW vpH (.fillRect x y w h c) = fillRectRequests vpW vpH x y w h c) ∧
    ∀ c, callRequests p vpW vpH (.fillScreen c) = fillScreenRequests vpW vpH c
end

