-- ==== Sys2Proof/Laws/State.lean ====
section
/-! SUPPORT. One lemma per field per named update of the state, so that later proofs need not unfold the
updates. -/

namespace Sys2Proof.Machine

/-! ### Lines -/

@[simp] theorem Lines.set_csN_csN (s : Lines) (b : Bool) : (s.set .csN b).csN = b := rfl
@[simp] theorem Lines.set_csN_scl (s : Lines) (b : Bool) : (s.set .csN b).scl = s.scl := rfl
@[simp] theorem Lines.set_csN_sda (s : Lines) (b : Bool) : (s.set .csN b).sda = s.sda := rfl
@[simp] theorem Lines.set_csN_lcdRst (s : Lines) (b : Bool) : (s.set .csN b).lcdRst = s.lcdRst := rfl
@[simp] theorem Lines.set_scl_csN (s : Lines) (b : Bool) : (s.set .scl b).csN = s.csN := rfl
@[simp] theorem Lines.set_scl_scl (s : Lines) (b : Bool) : (s.set .scl b).scl = b := rfl
@[simp] theorem Lines.set_scl_sda (s : Lines) (b : Bool) : (s.set .scl b).sda = s.sda := rfl
@[simp] theorem Lines.set_scl_lcdRst (s : Lines) (b : Bool) : (s.set .scl b).lcdRst = s.lcdRst := rfl
@[simp] theorem Lines.set_sda_csN (s : Lines) (b : Bool) : (s.set .sda b).csN = s.csN := rfl
@[simp] theorem Lines.set_sda_scl (s : Lines) (b : Bool) : (s.set .sda b).scl = s.scl := rfl
@[simp] theorem Lines.set_sda_sda (s : Lines) (b : Bool) : (s.set .sda b).sda = b := rfl
@[simp] theorem Lines.set_sda_lcdRst (s : Lines) (b : Bool) : (s.set .sda b).lcdRst = s.lcdRst := rfl
@[simp] theorem Lines.set_lcdRst_csN (s : Lines) (b : Bool) : (s.set .lcdRst b).csN = s.csN := rfl
@[simp] theorem Lines.set_lcdRst_scl (s : Lines) (b : Bool) : (s.set .lcdRst b).scl = s.scl := rfl
@[simp] theorem Lines.set_lcdRst_sda (s : Lines) (b : Bool) : (s.set .lcdRst b).sda = s.sda := rfl
@[simp] theorem Lines.set_lcdRst_lcdRst (s : Lines) (b : Bool) : (s.set .lcdRst b).lcdRst = b := rfl

@[simp] theorem Lines.get_set_self (s : Lines) (l : Line) (b : Bool) : (s.set l b).get l = b := by
  cases l <;> rfl

theorem Lines.get_set_of_ne (s : Lines) {l m : Line} (b : Bool) (h : m ≠ l) :
    (s.set l b).get m = s.get m := by
  cases l <;> cases m <;> first | rfl | exact absurd rfl h

/-! ### emit -/

@[simp] theorem State.emit_lines (s : State) (e : Event) : (s.emit e).lines = s.lines := rfl
@[simp] theorem State.emit_vpW (s : State) (e : Event) : (s.emit e).vpW = s.vpW := rfl
@[simp] theorem State.emit_vpH (s : State) (e : Event) : (s.emit e).vpH = s.vpH := rfl
@[simp] theorem State.emit_vpRot (s : State) (e : Event) : (s.emit e).vpRot = s.vpRot := rfl
@[simp] theorem State.emit_ps (s : State) (e : Event) : (s.emit e).ps = s.ps := rfl
@[simp] theorem State.emit_win (s : State) (e : Event) : (s.emit e).win = s.win := rfl
@[simp] theorem State.emit_q (s : State) (e : Event) : (s.emit e).q = s.q := rfl
@[simp] theorem State.emit_dly (s : State) (e : Event) : (s.emit e).dly = s.dly := rfl
@[simp] theorem State.emit_wact (s : State) (e : Event) : (s.emit e).wact = s.wact := rfl
@[simp] theorem State.emit_fIllreq (s : State) (e : Event) : (s.emit e).fIllreq = s.fIllreq := rfl
@[simp] theorem State.emit_fNotinit (s : State) (e : Event) : (s.emit e).fNotinit = s.fNotinit := rfl
@[simp] theorem State.emit_tp (s : State) (e : Event) : (s.emit e).tp = s.tp := rfl
@[simp] theorem State.emit_traceRev (s : State) (e : Event) : (s.emit e).traceRev = e :: s.traceRev := rfl
@[simp] theorem State.emit_cfg (s : State) (e : Event) : (s.emit e).cfg = s.cfg := rfl
@[simp] theorem State.emit_port (s : State) (e : Event) : (s.emit e).port = s.port := rfl
@[simp] theorem State.emit_calls (s : State) (e : Event) : (s.emit e).calls = s.calls := rfl
@[simp] theorem State.emit_sched (s : State) (e : Event) : (s.emit e).sched = s.sched := rfl

@[simp] theorem State.trace_emit (s : State) (e : Event) : (s.emit e).trace = s.trace ++ [e] := by
  simp [State.trace]

@[simp] theorem State.memRead_emit (s : State) (e : Event) (a : Nat) :
    (s.emit e).memRead a = s.memRead a := rfl

/-! ### raiseFault -/

@[simp] theorem State.raise_illreq_lines (s : State) : (s.raiseFault .illreq).lines = s.lines := rfl
@[simp] theorem State.raise_illreq_vpW (s : State) : (s.raiseFault .illreq).vpW = s.vpW := rfl
@[simp] theorem State.raise_illreq_vpH (s : State) : (s.raiseFault .illreq).vpH = s.vpH := rfl
@[simp] theorem State.raise_illreq_vpRot (s : State) : (s.raiseFault .illreq).vpRot = s.vpRot := rfl
@[simp] theorem State.raise_illreq_ps (s : State) : (s.raiseFault .illreq).ps = s.ps := rfl
@[simp] theorem State.raise_illreq_win (s : State) : (s.raiseFault .illreq).win = s.win := rfl
@[simp] theorem State.raise_illreq_q (s : State) : (s.raiseFault .illreq).q = s.q := rfl
@[simp] theorem State.raise_illreq_dly (s : State) : (s.raiseFault .illreq).dly = s.dly := rfl
@[simp] theorem State.raise_illreq_wact (s : State) : (s.raiseFault .illreq).wact = s.wact := rfl
@[simp] theorem State.raise_illreq_fIllreq (s : State) : (s.raiseFault .illreq).fIllreq = true := rfl
@[simp] theorem State.raise_illreq_fNotinit (s : State) : (s.raiseFault .illreq).fNotinit = s.fNotinit := rfl
@[simp] theorem State.raise_illreq_tp (s : State) : (s.raiseFault .illreq).tp = s.tp := rfl
@[simp] theorem State.raise_illreq_traceRev (s : State) : (s.raiseFault .illreq).traceRev = .fault .illreq :: s.traceRev := rfl
@[simp] theorem State.raise_illreq_cfg (s : State) : (s.raiseFault .illreq).cfg = s.cfg := rfl
@[simp] theorem State.raise_illreq_port (s : State) : (s.raiseFault .illreq).port = s.port := rfl
@[simp] theorem State.raise_illreq_calls (s : State) : (s.raiseFault .illreq).calls = s.calls := rfl
@[simp] theorem State.raise_illreq_sched (s : State) : (s.raiseFault .illreq).sched = s.sched := rfl
@[simp] theorem State.raise_notinit_lines (s : State) : (s.raiseFault .notinit).lines = s.lines := rfl
@[simp] theorem State.raise_notinit_vpW (s : State) : (s.raiseFault .notinit).vpW = s.vpW := rfl
@[simp] theorem State.raise_notinit_vpH (s : State) : (s.raiseFault .notinit).vpH = s.vpH := rfl
@[simp] theorem State.raise_notinit_vpRot (s : State) : (s.raiseFault .notinit).vpRot = s.vpRot := rfl
@[simp] theorem State.raise_notinit_ps (s : State) : (s.raiseFault .notinit).ps = s.ps := rfl
@[simp] theorem State.raise_notinit_win (s : State) : (s.raiseFault .notinit).win = s.win := rfl
@[simp] theorem State.raise_notinit_q (s : State) : (s.raiseFault .notinit).q = s.q := rfl
@[simp] theorem State.raise_notinit_dly (s : State) : (s.raiseFault .notinit).dly = s.dly := rfl
@[simp] theorem State.raise_notinit_wact (s : State) : (s.raiseFault .notinit).wact = s.wact := rfl
@[simp] theorem State.raise_notinit_fIllreq (s : State) : (s.raiseFault .notinit).fIllreq = s.fIllreq := rfl
@[simp] theorem State.raise_notinit_fNotinit (s : State) : (s.raiseFault .notinit).fNotinit = true := rfl
@[simp] theorem State.raise_notinit_tp (s : State) : (s.raiseFault .notinit).tp = s.tp := rfl
@[simp] theorem State.raise_notinit_traceRev (s : State) : (s.raiseFault .notinit).traceRev = .fault .notinit :: s.traceRev := rfl
@[simp] theorem State.raise_notinit_cfg (s : State) : (s.raiseFault .notinit).cfg = s.cfg := rfl
@[simp] theorem State.raise_notinit_port (s : State) : (s.raiseFault .notinit).port = s.port := rfl
@[simp] theorem State.raise_notinit_calls (s : State) : (s.raiseFault .notinit).calls = s.calls := rfl
@[simp] theorem State.raise_notinit_sched (s : State) : (s.raiseFault .notinit).sched = s.sched := rfl

/-! ### blockReset -/

@[simp] theorem blockReset_lines (s : State) : (blockReset s).lines = Lines.reset := rfl
@[simp] theorem blockReset_vpW (s : State) : (blockReset s).vpW = 97 := rfl
@[simp] theorem blockReset_vpH (s : State) : (blockReset s).vpH = 69 := rfl
@[simp] theorem blockReset_vpRot (s : State) : (blockReset s).vpRot = 0 := rfl
@[simp] theorem blockReset_ps (s : State) : (blockReset s).ps = .uninit := rfl
@[simp] theorem blockReset_win (s : State) : (blockReset s).win = .closed := rfl
@[simp] theorem blockReset_q (s : State) : (blockReset s).q = [] := rfl
@[simp] theorem blockReset_dly (s : State) : (blockReset s).dly = 0 := rfl
@[simp] theorem blockReset_wact (s : State) : (blockReset s).wact = false := rfl
@[simp] theorem blockReset_fIllreq (s : State) : (blockReset s).fIllreq = false := rfl
@[simp] theorem blockReset_fNotinit (s : State) : (blockReset s).fNotinit = false := rfl
@[simp] theorem blockReset_tp (s : State) : (blockReset s).tp = 0 := rfl
@[simp] theorem blockReset_traceRev (s : State) : (blockReset s).traceRev = .reset :: s.traceRev := rfl
@[simp] theorem blockReset_cfg (s : State) : (blockReset s).cfg = s.cfg := rfl
@[simp] theorem blockReset_port (s : State) : (blockReset s).port = s.port := rfl
@[simp] theorem blockReset_calls (s : State) : (blockReset s).calls = s.calls := rfl
@[simp] theorem blockReset_sched (s : State) : (blockReset s).sched = s.sched := rfl

/-! ### The trace, the busy flag and ROM reads -/

@[simp] theorem State.busy_eq_false_iff (s : State) : s.busy = false ↔ s.q = [] := by
  simp [State.busy]

@[simp] theorem State.busy_eq_true_iff (s : State) : s.busy = true ↔ s.q ≠ [] := by
  simp [State.busy]

theorem State.memRead_congr {s t : State} (h : t.cfg = s.cfg) (a : Nat) : t.memRead a = s.memRead a := by
  simp [State.memRead, h]

end Sys2Proof.Machine
end

