-- ==== Sys2Proof/Laws/Decode.lean ====
section
/-! SUPPORT. Small lemmas about the decoder's and the encoder's helpers. -/

namespace Sys2Proof

theorem takeArgs_append (as bs : List Byte) : takeArgs as.length (as ++ bs) = some (as, bs) := by
  induction as with
  | nil => rfl
  | cons a as ih => simp [takeArgs, ih]

theorem eq_append_of_takeArgs {n : Nat} {bs as rest : List Byte} (h : takeArgs n bs = some (as, rest)) :
    bs = as ++ rest ∧ as.length = n := by
  induction n generalizing bs as with
  | zero => simp only [takeArgs, Option.some.injEq, Prod.mk.injEq] at h; obtain ⟨rfl, rfl⟩ := h; simp
  | succ n ih =>
    match bs with
    | [] => simp [takeArgs] at h
    | b :: bs =>
      simp only [takeArgs] at h
      split at h
      · next args rest' hr =>
        simp only [Option.some.injEq, Prod.mk.injEq] at h
        obtain ⟨rfl, rfl⟩ := h
        obtain ⟨rfl, rfl⟩ := ih hr
        simp
      · simp at h

theorem takeArgs_eq_none_iff {n : Nat} {bs : List Byte} : takeArgs n bs = none ↔ bs.length < n := by
  induction n generalizing bs with
  | zero => simp [takeArgs]
  | succ n ih =>
    match bs with
    | [] => simp [takeArgs]
    | b :: bs =>
      rw [takeArgs]
      cases h : takeArgs n bs with
      | none => simpa using ih.mp h
      | some p =>
        have : ¬ bs.length < n := fun hlt => by simp [ih.mpr hlt] at h
        simpa using this

theorem argcCount_argcByte {n : Nat} (f : Bool) (h : n ≤ 127) : argcCount (argcByte f n) = n := by
  have : ∀ f : Bool, ∀ n : Fin 128, argcCount (argcByte f n.val) = n.val := by decide +kernel
  exact this f ⟨n, by omega⟩

theorem argcFlag_argcByte {n : Nat} (f : Bool) (h : n ≤ 127) : argcFlag (argcByte f n) = f := by
  have : ∀ f : Bool, ∀ n : Fin 128, argcFlag (argcByte f n.val) = f := by decide +kernel
  exact this f ⟨n, by omega⟩

theorem argcByte_argc (argc : Byte) : argcByte (argcFlag argc) (argcCount argc) = argc := by
  have : ∀ n : Fin 256, argcByte (argcFlag (BitVec.ofFin n)) (argcCount (BitVec.ofFin n)) = BitVec.ofFin n := by
    decide +kernel
  exact this argc.toFin

theorem argcCount_le (argc : Byte) : argcCount argc ≤ 127 := by
  have : ∀ n : Fin 256, argcCount (BitVec.ofFin n) ≤ 127 := by decide +kernel
  exact this argc.toFin

/-- Every record's reading: what `decodeRecord` answers, in terms of the bytes. -/
theorem decodeRecord_ok {bs rest : List Byte} {r : Record} (h : decodeRecord bs = .ok (r, rest)) :
    ∃ argc, bs = r.cmd :: argc :: (r.args ++ (r.delay.toList ++ rest)) ∧
      r.args.length = argcCount argc ∧ r.delay.isSome = argcFlag argc := by
  match bs with
  | [] => simp [decodeRecord] at h
  | [_] => simp [decodeRecord] at h
  | cmd :: argc :: bs =>
    simp only [decodeRecord] at h
    split at h
    · simp at h
    · next args rest' hr =>
      obtain ⟨rfl, hl⟩ := eq_append_of_takeArgs hr
      split at h
      · next hf =>
        split at h
        · simp only [Except.ok.injEq, Prod.mk.injEq] at h
          obtain ⟨rfl, rfl⟩ := h
          exact ⟨argc, by simp, hl, by simp [hf]⟩
        · simp at h
      · next hf =>
        simp only [Except.ok.injEq, Prod.mk.injEq] at h
        obtain ⟨rfl, rfl⟩ := h
        exact ⟨argc, by simp, hl, by simpa using hf⟩

/-- Where a whole record stands at the front of the bytes, it is read. -/
theorem decodeRecord_of_bytes (cmd argc : Byte) (args rest : List Byte) (delay : Option Byte)
    (hn : args.length = argcCount argc) (hd : delay.isSome = argcFlag argc) :
    decodeRecord (cmd :: argc :: (args ++ (delay.toList ++ rest))) =
      .ok ({ cmd := cmd, args := args, delay := delay }, rest) := by
  simp only [decodeRecord]
  rw [← hn, takeArgs_append]
  cases delay with
  | none => simp_all
  | some d => simp_all

end Sys2Proof
end

