-- ==== Sys2Proof/Laws/Memory.lean ====
section
/-! SUPPORT. The ROM is the byte array of its image: a ROM in canonical form is `Memory.ofBytes` of its
bytes, and the operations over it are those of a byte list. There is no operation that writes it, so the
canonical form is kept by every operation. -/

namespace Sys2Proof

theorem Memory.map_fst_ofBytesFrom (n : Nat) (bs : List Byte) :
    (Memory.ofBytesFrom n bs).map Prod.fst = List.range' n bs.length := by
  induction bs generalizing n with
  | nil => rfl
  | cons b bs ih => simp [Memory.ofBytesFrom, ih, List.range'_succ]

theorem Memory.map_snd_ofBytesFrom (n : Nat) (bs : List Byte) :
    (Memory.ofBytesFrom n bs).map Prod.snd = bs := by
  induction bs generalizing n with
  | nil => rfl
  | cons b bs ih => simp [Memory.ofBytesFrom, ih]

@[simp] theorem Memory.romLen_ofBytes (bs : List Byte) : (Memory.ofBytes bs).romLen = bs.length := by
  have h := congrArg List.length (Memory.map_snd_ofBytesFrom 0 bs)
  simpa [Memory.romLen, Memory.ofBytes] using h

@[simp] theorem Memory.wf_ofBytes (bs : List Byte) : (Memory.ofBytes bs).wf = true := by
  have hl := Memory.romLen_ofBytes bs
  simp only [Memory.romLen] at hl
  simp [Memory.wf, Memory.ofBytes, Memory.map_fst_ofBytesFrom, List.range_eq_range'] at hl ⊢
  rw [hl]

theorem Memory.lookup_ofBytesFrom (n : Nat) (bs : List Byte) (a : Nat) :
    (Memory.ofBytesFrom n bs).lookup a = if a < n then none else bs[a - n]? := by
  induction bs generalizing n with
  | nil => simp [Memory.ofBytesFrom]
  | cons b bs ih =>
    simp only [Memory.ofBytesFrom, List.lookup_cons, ih]
    by_cases h : a = n
    · subst h; simp
    · have hb : (a == n) = false := by simpa using h
      rw [hb]
      by_cases hlt : a < n
      · simp [hlt, Nat.lt_succ_of_lt hlt]
      · have h1 : ¬ a < n + 1 := by omega
        have h2 : a - n = (a - (n + 1)) + 1 := by omega
        simp [hlt, h1, h2]

/-- `ROM[a]` is byte `a` of the image, and outside the image there is no byte (rules R50, R51, R59). -/
@[simp] theorem Memory.read_ofBytes (bs : List Byte) (a : Nat) : (Memory.ofBytes bs).read a = bs[a]? := by
  simp [Memory.read, Memory.ofBytes, Memory.lookup_ofBytesFrom]

theorem Memory.bytesFrom_ofBytesFrom (n tp : Nat) (bs : List Byte) :
    (Memory.ofBytesFrom n bs).bytesFrom tp = bs.drop (tp - n) := by
  induction bs generalizing n with
  | nil => simp [Memory.ofBytesFrom, Memory.bytesFrom]
  | cons b bs ih =>
    have h := ih (n + 1)
    simp only [Memory.bytesFrom] at h
    by_cases hle : tp ≤ n
    · have h0 : tp - n = 0 := by omega
      have h1 : tp - (n + 1) = 0 := by omega
      simp [Memory.ofBytesFrom, Memory.bytesFrom, hle, h0, h, h1]
    · have h2 : tp - n = (tp - (n + 1)) + 1 := by omega
      simp [Memory.ofBytesFrom, Memory.bytesFrom, hle, h, h2]

/-- What the interpreter has still to read is the image from its pointer on. -/
@[simp] theorem Memory.bytesFrom_ofBytes (tp : Nat) (bs : List Byte) :
    (Memory.ofBytes bs).bytesFrom tp = bs.drop tp := by
  simp [Memory.ofBytes, Memory.bytesFrom_ofBytesFrom]

theorem Memory.eq_ofBytesFrom {n : Nat} {m : Memory}
    (h : m.map Prod.fst = List.range' n m.length) : m = Memory.ofBytesFrom n (m.map Prod.snd) := by
  induction m generalizing n with
  | nil => rfl
  | cons c m ih =>
    obtain ⟨a, b⟩ := c
    simp only [List.map_cons, List.length_cons, List.range'_succ, List.cons.injEq] at h
    simp only [List.map_cons, Memory.ofBytesFrom]
    rw [← ih h.2, h.1]

/-- A ROM in canonical form is the ROM of its own bytes: equal ROMs are equal lists. -/
theorem Memory.eq_ofBytes {m : Memory} (h : m.wf = true) : m = Memory.ofBytes (m.map Prod.snd) := by
  simp only [Memory.wf, beq_iff_eq, List.range_eq_range'] at h
  exact Memory.eq_ofBytesFrom h

end Sys2Proof
end

