-- ==== Sys2Proof/Laws/Ops.lean ====
section
/-! SUPPORT. What each shared operation can do, said once. -/

namespace Sys2Proof.Machine

/-! ### Acceptance -/

theorem acceptRequest_of_busy {i : Instr} {f : State → State} {s : State} (h : s.q ≠ []) :
    acceptRequest i f s = s := by
  simp [acceptRequest, h]

theorem acceptRequest_of_uninit {i : Instr} {f : State → State} {s : State} (h : s.q = [])
    (hp : s.ps = .uninit) :
    acceptRequest i f s = (s.emit (.accept (encode i))).raiseFault .notinit := by
  simp [acceptRequest, State.busy, h, hp]

theorem acceptRequest_of_idle {i : Instr} {f : State → State} {s : State} (h : s.q = [])
    (hp : s.ps ≠ .uninit) : acceptRequest i f s = f (s.emit (.accept (encode i))) := by
  simp [acceptRequest, State.busy, h, hp]

/-- The three things the acceptance of a request other than INIT can do. -/
theorem acceptRequest_cases (i : Instr) (f : State → State) (s : State) :
    (s.q ≠ [] ∧ acceptRequest i f s = s) ∨
    (s.q = [] ∧ s.ps = .uninit ∧
      acceptRequest i f s = (s.emit (.accept (encode i))).raiseFault .notinit) ∨
    (s.q = [] ∧ s.ps ≠ .uninit ∧ acceptRequest i f s = f (s.emit (.accept (encode i)))) := by
  by_cases h : s.q = []
  · by_cases hp : s.ps = .uninit
    · exact .inr (.inl ⟨h, hp, acceptRequest_of_uninit h hp⟩)
    · exact .inr (.inr ⟨h, hp, acceptRequest_of_idle h hp⟩)
  · exact .inl ⟨h, acceptRequest_of_busy h⟩

/-! ### Perform and Tick -/

/-- Everything that Perform can do. -/
theorem perform_cases (s : State) :
    (perform s = s ∧ (s.q = [] ∨ s.held = true)) ∨
    (∃ l b ops, s.q = .setLine l b :: ops ∧
      perform s = { s with lines := s.lines.set l b, q := ops, traceRev := .lineWrite l b :: s.traceRev }) ∨
    (∃ n ops, s.q = .wait n :: ops ∧ s.wact = false ∧
      perform s = { s with dly := BitVec.ofNat 16 n.val, wact := true,
                           traceRev := .waitBegin n :: s.traceRev }) ∨
    (∃ n ops, s.q = .wait n :: ops ∧ s.wact = true ∧ s.dly = 0 ∧
      perform s = { s with q := ops, wact := false, traceRev := .waitEnd :: s.traceRev }) ∨
    (∃ ops, s.q = .endInit :: ops ∧
      perform s = { s with q := ops, ps := .ready, traceRev := .initDone :: s.traceRev }) := by
  match hq : s.q with
  | [] => exact .inl ⟨by simp [perform, hq], .inl rfl⟩
  | .setLine l b :: ops => exact .inr (.inl ⟨l, b, ops, rfl, by simp [perform, hq, State.emit]⟩)
  | .wait n :: ops =>
    by_cases hw : s.wact = true
    · by_cases hd : s.dly = 0
      · exact .inr (.inr (.inr (.inl ⟨n, ops, rfl, hw, hd, by simp only [perform, hq, hw, hd, if_true]; rfl⟩)))
      · refine .inl ⟨by simp only [perform, hq, hw, hd, if_true, if_false], .inr ?_⟩
        simpa [State.held, hq, hw] using hd
    · have hw' : s.wact = false := by simpa using hw
      exact .inr (.inr (.inl ⟨n, ops, rfl, hw', by simp [perform, hq, hw', State.emit]⟩))
  | .endInit :: ops => exact .inr (.inr (.inr (.inr ⟨ops, rfl, by simp [perform, hq, State.emit]⟩)))

/-- Everything that Tick can do. -/
theorem tick_cases (s : State) :
    (tick s = s ∧ ¬(s.wact = true ∧ s.dly ≠ 0)) ∨
    (s.wact = true ∧ s.dly ≠ 0 ∧
      tick s = { s with dly := s.dly - 1, traceRev := .tick :: s.traceRev }) := by
  by_cases h : s.wact = true ∧ s.dly ≠ 0
  · exact .inr ⟨h.1, h.2, if_pos h⟩
  · exact .inl ⟨if_neg h, h⟩

/-! ### The table interpreter -/

/-- The micro-ops of a record. -/
def recordOps (r : Record) : List MicroOp :=
  recordFrames r.cmd r.args ++ (r.delay.map (fun d => MicroOp.wait (delayMs d))).toList

theorem runRecord_eq (r : Record) (s : State) :
    runRecord r s = { s with q := s.q ++ recordOps r
                             tp := s.tp + (2 + r.args.length + r.delay.toList.length) } := by
  obtain ⟨cmd, args, delay⟩ := r
  cases delay with
  | none => simp [runRecord, initrecNext, recordOps]
  | some d => simp [runRecord, initrecDNext, recordOps]; omega

/-- A micro-op that belongs to frames and table waits: no write of LCD_RST and no EndInit. -/
def MicroOp.inTable : MicroOp → Bool
  | .setLine .lcdRst _ => false
  | .setLine _ _ => true
  | .wait _ => true
  | .endInit => false

theorem inTable_of_mem_frame {dc : Bool} {v : Byte} {op : MicroOp} (h : op ∈ frame dc v) :
    op.inTable = true := by
  have hall : (frame dc v).all MicroOp.inTable = true := rfl
  exact List.all_eq_true.mp hall op h

theorem inTable_of_mem_recordOps {r : Record} {op : MicroOp} (h : op ∈ recordOps r) :
    op.inTable = true := by
  simp only [recordOps, recordFrames, commandFrame, List.mem_append, List.mem_flatMap] at h
  rcases h with (h | ⟨a, _, h⟩) | h
  · exact inTable_of_mem_frame h
  · exact inTable_of_mem_frame (dc := true) h
  · cases hd : r.delay with
    | none => simp [hd] at h
    | some d => simp [hd] at h; subst h; rfl

/-- What running `k` records can do: it extends the queue by frames and waits, and moves `TP`. -/
theorem runRecords_eq {k : Nat} {s t : State} (h : runRecords k s = some t) :
    ∃ ops, t = { s with q := s.q ++ ops, tp := t.tp } ∧ ∀ op ∈ ops, op.inTable = true := by
  induction k generalizing s with
  | zero =>
    simp only [runRecords, Option.some.injEq] at h
    subst h
    exact ⟨[], by simp, by simp⟩
  | succ k ih =>
    simp only [runRecords] at h
    split at h
    · simp at h
    · next r _ =>
      obtain ⟨ops, ht, hops⟩ := ih h
      rw [runRecord_eq] at ht
      refine ⟨recordOps r ++ ops, ?_, ?_⟩
      · simpa [List.append_assoc] using ht
      · intro op hop
        rcases List.mem_append.mp hop with hop | hop
        · exact inTable_of_mem_recordOps hop
        · exact hops op hop

/-- What the interpreter can do. -/
theorem runTable_eq {s t : State} (h : runTable s = some t) :
    ∃ ops, t = { s with q := s.q ++ ops, tp := t.tp } ∧ ∀ op ∈ ops, op.inTable = true := by
  simp only [runTable] at h
  split at h
  · simp at h
  · obtain ⟨ops, ht, hops⟩ := runRecords_eq h
    exact ⟨ops, ht, hops⟩

/-- Everything that INIT can do. -/
theorem execInit_cases (s : State) :
    (s.q ≠ [] ∧ execInit s = .next s) ∨
    (s.q = [] ∧ execInit s = .refused .tableIllFormed) ∨
    (s.q = [] ∧ ∃ ops tp, (∀ op ∈ ops, op.inTable = true) ∧
      execInit s = .next { s with
        ps := .initializing, win := .closed, tp := tp
        q := resetPulse s.cfg.toParams ++ ops ++ [.endInit]
        traceRev := .accept (encode .init) :: s.traceRev }) := by
  by_cases h : s.q = []
  · right
    have hb : s.busy = false := by simp [h]
    simp only [execInit, hb, Bool.false_eq_true, if_false]
    split
    · exact .inl ⟨h, rfl⟩
    · next t ht =>
      obtain ⟨ops, ht, hops⟩ := runTable_eq ht
      refine .inr ⟨h, ops, t.tp, hops, ?_⟩
      rw [ht]
      simp [State.emit]
  · exact .inl ⟨h, by simp [execInit, h]⟩

/-! ### Turns -/

/-- A turn scheduled in front is the turn of its agent. -/
theorem turn_eq (a : Agent) (s : State) : turn a s = agentTurn a s := rfl

/-- A step is the turn of the mover, in the state whose schedule has that turn off it. -/
theorem step_eq (s : State) : step s = agentTurn (mover s) { s with sched := s.sched.tail } := by
  unfold step takeStep mover
  split <;> rename_i h <;> simp only [h, List.tail]
  rw [← h]

end Sys2Proof.Machine
end

