-- ==== Sys2Proof/Laws/Step.lean ====
section
/-! SUPPORT. What an accepted request does, and what a step can do, said once. -/

namespace Sys2Proof.Machine

theorem core_run_succ (M : Host.Core) (k : Nat) (s : M.State) :
    M.run (k + 1) s =
      match M.step s with
      | .next s' => M.run k s'
      | .fault r => .fault r
      | .refused r => .refused r := rfl

/-- A run of the machine behind the host's interface is `runFor`. -/
theorem core_run_eq_runFor (k : Nat) (s : State) : core.run k s = runFor k s := by
  induction k generalizing s with
  | zero => rfl
  | succ k ih =>
    refine (core_run_succ core k s).trans ?_
    rw [runFor]
    cases h : step s with
    | next t => rw [show core.step s = .next t from h]; exact ih t
    | fault r => rw [show core.step s = .fault r from h]; rfl
    | refused r => rw [show core.step s = .refused r from h]; rfl

@[simp] theorem runFor_zero (s : State) : runFor 0 s = .next s := rfl

theorem runFor_succ_of_next {k : Nat} {s t : State} (h : step s = .next t) :
    runFor (k + 1) s = runFor k t := by
  rw [runFor, h]

/-- A run of `j + k` steps is a run of `j` and then one of `k`. -/
theorem runFor_add {j k : Nat} {s t : State} (h : runFor j s = .next t) :
    runFor (j + k) s = runFor k t := by
  induction j generalizing s with
  | zero => simp only [runFor_zero, Host.Outcome.next.injEq] at h; subst h; simp
  | succ j ih =>
    rw [runFor] at h
    cases hs : step s with
    | next s' => rw [hs] at h; rw [Nat.succ_add, runFor_succ_of_next hs]; exact ih h
    | fault r => rw [hs] at h; simp at h
    | refused r => rw [hs] at h; simp at h

/-- `WIN` after the acceptance of a request (rule R113). -/
def winAfter (i : Instr) (w : WindowPhase) : WindowPhase :=
  match i with
  | .setwin _ _ _ _ => .opened
  | .wrpix _ | .wrdata _ => w.afterData
  | _ => .closed

/-- The viewport after the acceptance of a request: rotation, width, height (rule R206). -/
def viewportAfter (i : Instr) (s : State) : BitVec 2 × Byte × Byte :=
  match i with
  | .setrot r =>
    (rotationMod4 r, (viewportOf (rotationMod4 r)).1, (viewportOf (rotationMod4 r)).2)
  | _ => (s.vpRot, s.vpW, s.vpH)

/-- `PS` after the acceptance of a request (rule R112). -/
def psAfterAccept (i : Instr) (p : ProtocolState) : ProtocolState :=
  match i with
  | .init => .initializing
  | _ => p

/-- The state after the acceptance of the request `i`, with the expansion `ops` in the queue and the table
pointer at `tp`. -/
def accepted (i : Instr) (ops : List MicroOp) (tp : Nat) (s : State) : State :=
  { s with
    vpRot := (viewportAfter i s).1, vpW := (viewportAfter i s).2.1, vpH := (viewportAfter i s).2.2
    ps := psAfterAccept i s.ps, win := winAfter i s.win, q := ops, tp := tp
    traceRev := .accept (encode i) :: s.traceRev }

/-- The shape of an expansion (rule R103): frames for every request but INIT; for INIT the reset pulse,
the table's frames and waits, and EndInit. -/
def ExpansionOf (c : Config) (i : Instr) (ops : List MicroOp) : Prop :=
  match i with
  | .init => ∃ table, (∀ op ∈ table, op.inTable = true) ∧
      ops = resetPulse c.toParams ++ table ++ [.endInit]
  | i => ops = (busFrames c i).flatMap (fun f => frame f.dc f.v)

/-- Everything that a request can do when it gives a next state. -/
theorem exec_request_cases {i : Instr} {s t : State} (hi : i.isRequest = true)
    (h : exec i s = .next t) :
    (s.q ≠ [] ∧ t = s) ∨
    (s.q = [] ∧ s.ps = .uninit ∧ i ≠ .init ∧
      t = (s.emit (.accept (encode i))).raiseFault .notinit) ∨
    (s.q = [] ∧ (s.ps ≠ .uninit ∨ i = .init) ∧ ∃ ops tp, (i ≠ .init → tp = s.tp) ∧
      ExpansionOf s.cfg i ops ∧ t = accepted i ops tp s) := by
  have key : ∀ f : State → State, i ≠ .init → Host.Outcome.next (acceptRequest i f s) = Host.Outcome.next (φ := Fault) (ρ := Refusal) t →
      (∀ s', ∃ ops, ExpansionOf s'.cfg i ops ∧ f (s'.emit (.accept (encode i))) = accepted i ops s'.tp s') →
      (s.q ≠ [] ∧ t = s) ∨
      (s.q = [] ∧ s.ps = .uninit ∧ i ≠ .init ∧
        t = (s.emit (.accept (encode i))).raiseFault .notinit) ∨
      (s.q = [] ∧ (s.ps ≠ .uninit ∨ i = .init) ∧ ∃ ops tp, (i ≠ .init → tp = s.tp) ∧
        ExpansionOf s.cfg i ops ∧ t = accepted i ops tp s) := by
    intro f hn ht hf
    obtain rfl : acceptRequest i f s = t := by simpa using ht
    rcases acceptRequest_cases i f s with ⟨hq, e⟩ | ⟨hq, hp, e⟩ | ⟨hq, hp, e⟩
    · exact .inl ⟨hq, e⟩
    · exact .inr (.inl ⟨hq, hp, hn, e⟩)
    · obtain ⟨ops, hops, hfs⟩ := hf s
      exact .inr (.inr ⟨hq, .inl hp, ops, s.tp, fun _ => rfl, hops, by rw [e, hfs]⟩)
  cases i with
  | wrcmd v => exact key _ (by simp) h (fun s' => ⟨_, rfl, rfl⟩)
  | wrdata v => exact key _ (by simp) h (fun s' => ⟨_, rfl, rfl⟩)
  | wrpix c => exact key _ (by simp) h (fun s' => ⟨_, rfl, rfl⟩)
  | setwin x0 y0 x1 y1 => exact key _ (by simp) h (fun s' => ⟨_, rfl, rfl⟩)
  | setrot r => exact key _ (by simp) h (fun s' => ⟨_, rfl, rfl⟩)
  | init =>
    rcases execInit_cases s with ⟨hq, e⟩ | ⟨hq, e⟩ | ⟨hq, ops, tp, hops, e⟩
    · exact .inl ⟨hq, by simpa using h.symm.trans e⟩
    · rw [exec, e] at h; simp at h
    · rw [exec, e] at h
      refine .inr (.inr ⟨hq, .inr rfl, _, tp, by simp, ⟨ops, hops, rfl⟩, ?_⟩)
      simp only [Host.Outcome.next.injEq] at h
      exact h.symm
  | initrec cmd args => simp [Instr.isRequest] at hi
  | initrecD cmd args d => simp [Instr.isRequest] at hi

/-- A request decodes to a request. -/
theorem isRequest_of_decodeRequest {bs rest : List Byte} {i : Instr}
    (h : decodeRequest bs = .ok (i, rest)) : i.isRequest = true := by
  unfold decodeRequest at h
  repeat' split at h
  all_goals
    simp only [Except.ok.injEq, Prod.mk.injEq, reduceCtorEq] at h
    try (obtain ⟨rfl, rfl⟩ := h; rfl)

/-- The state that the mover acts on: its turn is off the schedule. -/
def afterTurnTaken (s : State) : State := { s with sched := s.sched.tail }

/-- Everything that the host can do with its calls: it changes what it will offer, and nothing of the
block. -/
theorem takeCall_eq (s : State) : ∃ port calls, takeCall s = { s with port := port, calls := calls } := by
  unfold takeCall
  split
  · exact ⟨s.port, s.calls, rfl⟩
  · exact ⟨_, _, rfl⟩
  · exact ⟨_, _, rfl⟩
  · split
    · exact ⟨s.port, _, rfl⟩
    · exact ⟨s.port, s.calls, rfl⟩
  · exact ⟨_, _, rfl⟩

/-- Everything that a step can do when it gives a next state. -/
theorem step_cases {s t : State} (h : step s = .next t) :
    (mover s = .resetInput ∧ t = blockReset (afterTurnTaken s)) ∨
    (mover s = .tickSource ∧ t = tick (afterTurnTaken s)) ∨
    (mover s = .block ∧ t = perform (afterTurnTaken s)) ∨
    (mover s = .host ∧ s.q ≠ [] ∧ t = afterTurnTaken s) ∨
    (mover s = .host ∧ s.q = [] ∧ ∃ port calls,
      t = { afterTurnTaken s with port := port, calls := calls }) ∨
    (mover s = .host ∧ s.q = [] ∧ ∃ b port,
      t = ({ afterTurnTaken s with port := port }.emit (.accept [b])).raiseFault .illreq) ∨
    (mover s = .host ∧ s.q = [] ∧ ∃ i rest, decodeRequest s.port = .ok (i, rest) ∧
      i.isRequest = true ∧ exec i { afterTurnTaken s with port := rest } = .next t) := by
  rw [step_eq] at h
  change agentTurn (mover s) (afterTurnTaken s) = .next t at h
  cases hm : mover s with
  | resetInput => rw [hm] at h; exact .inl ⟨rfl, by simpa [agentTurn] using h.symm⟩
  | tickSource => rw [hm] at h; exact .inr (.inl ⟨rfl, by simpa [agentTurn] using h.symm⟩)
  | block => rw [hm] at h; exact .inr (.inr (.inl ⟨rfl, by simpa [agentTurn] using h.symm⟩))
  | host =>
    rw [hm] at h
    by_cases hq : s.q = []
    · have hb : (afterTurnTaken s).busy = false := by simp [afterTurnTaken, hq]
      simp only [agentTurn, hostTurn, hb, Bool.false_eq_true, if_false] at h
      unfold offerNext at h
      split at h
      · next i rest hd =>
        exact .inr (.inr (.inr (.inr (.inr (.inr
          ⟨rfl, hq, i, rest, hd, isRequest_of_decodeRequest hd, h⟩)))))
      · next b hd =>
        refine .inr (.inr (.inr (.inr (.inr (.inl ⟨rfl, hq, b, s.port.tail, ?_⟩)))))
        simp only [Host.Outcome.next.injEq] at h
        rw [← h]
        simp [rejectOpcode, State.busy, afterTurnTaken, hq]
      · refine .inr (.inr (.inr (.inr (.inl ⟨rfl, hq, ?_⟩))))
        split at h
        · obtain ⟨port, calls, e⟩ := takeCall_eq (afterTurnTaken s)
          exact ⟨port, calls, by simpa [e] using h.symm⟩
        · simp only [Host.Outcome.next.injEq] at h
          exact ⟨s.port, s.calls, h.symm⟩
    · have hb : (afterTurnTaken s).busy = true := by simp [afterTurnTaken, hq]
      simp only [agentTurn, hostTurn, hb, if_true, Host.Outcome.next.injEq] at h
      exact .inr (.inr (.inr (.inl ⟨rfl, hq, h.symm⟩)))

end Sys2Proof.Machine
end

