-- ==== Sys2Proof/Laws/Frames.lean ====
section
/-! SUPPORT. Frames on the lines and at the receiver: what performing a list of micro-ops does to the
levels, and what the receiver makes of the events of a frame. -/

namespace Sys2Proof.Machine

theorem linesAfter_append (a b : List MicroOp) (l : Lines) :
    linesAfter (a ++ b) l = linesAfter b (linesAfter a l) := by
  induction a generalizing l with
  | nil => rfl
  | cons op a ih => cases op <;> simp [linesAfter, ih]

/-- After a frame the bus is idle and SDA holds the byte's last bit (rule R138). -/
theorem linesAfter_frame (dc : Bool) (v : Byte) (l : Lines) :
    linesAfter (frame dc v) l = { l with csN := true, scl := false, sda := v.getLsbD 0 } := rfl

theorem runEvents_cons (op : MicroOp) (ops : List MicroOp) :
    runEvents (op :: ops) = opEvents op ++ runEvents ops := by simp [runEvents]

theorem runEvents_append (a b : List MicroOp) : runEvents (a ++ b) = runEvents a ++ runEvents b := by
  simp [runEvents]

theorem receive_append (e : Edge) (a b : List Event) :
    receive e (a ++ b) = b.foldl (Receiver.observe e) (receive e a) := by
  simp [receive]

/-- A byte is the number of its own bits, most significant first. -/
theorem byteOfBits_getLsbD (v : Byte) :
    byteOfBits [v.getLsbD 7, v.getLsbD 6, v.getLsbD 5, v.getLsbD 4, v.getLsbD 3, v.getLsbD 2,
      v.getLsbD 1, v.getLsbD 0] = v := by
  have h : ∀ n : Fin 256,
      (let v : Byte := BitVec.ofFin n
       byteOfBits [v.getLsbD 7, v.getLsbD 6, v.getLsbD 5, v.getLsbD 4, v.getLsbD 3, v.getLsbD 2,
         v.getLsbD 1, v.getLsbD 0] = v) := by decide +kernel
  exact h v.toFin

/-- What a receiver that samples on either edge makes of a frame, from an idle bus. -/
theorem observe_frame (e : Edge) (dc : Bool) (v : Byte) (r : Receiver) (hb : r.buf = [])
    (hc : r.lines.csN = true) (hs : r.lines.scl = false) :
    (runEvents (frame dc v)).foldl (Receiver.observe e) r =
      { lines := { r.lines with csN := true, scl := false, sda := v.getLsbD 0 }
        buf := []
        frames := r.frames ++ [{ dc := dc, v := v }] } := by
  obtain ⟨⟨cs, sc, sd, lr⟩, buf, frames⟩ := r
  simp only at hb hc hs
  subst hb hc hs
  have hv := byteOfBits_getLsbD v
  cases e <;>
    simp [runEvents, opEvents, frame, pulse, sendByte, sendBit, Receiver.observe, Receiver.samples,
      Receiver.deselects, Lines.set, Receiver.sample] <;> simpa using hv

theorem observe_ticks (e : Edge) (k : Nat) (r : Receiver) :
    (List.replicate k Event.tick).foldl (Receiver.observe e) r = r := by
  induction k generalizing r with
  | zero => rfl
  | succ k ih => rw [List.replicate_succ, List.foldl_cons]; exact ih r

/-- A wait adds nothing at the receiver. -/
theorem observe_waitTail (e : Edge) (k : Nat) (r : Receiver) :
    (waitTail k).foldl (Receiver.observe e) r = r := by
  rw [waitTail, List.foldl_append, observe_ticks]; rfl

end Sys2Proof.Machine
end

