-- ==== Sys2Proof/Laws/PerInstr.lean ====
section
/-! SUPPORT. Laws made of each instruction. The family EncodeLength: a well-formed instruction has as many
bytes as its leading bytes say (`30_encoding.md` rules R76, R78 and R84). -/

namespace Sys2Proof.Laws.EncodeLength

/-- The length of the instruction's bytes is the one that its opcode, or its argument-count byte, gives. -/
def Statement (i : Instr) : Prop :=
  i.wf = true →
    (encode i).length =
      if i.isRequest then requestLen ((encode i).headD 0) else recLen ((encode i).getD 1 0)

theorem wrcmd (v : Byte) : Statement (.wrcmd v) := fun _ => rfl

theorem wrdata (v : Byte) : Statement (.wrdata v) := fun _ => rfl

theorem wrpix (c : Color) : Statement (.wrpix c) := fun _ => rfl

theorem setwin (x0 y0 x1 y1 : Byte) : Statement (.setwin x0 y0 x1 y1) := fun _ => rfl

theorem setrot (r : Byte) : Statement (.setrot r) := fun _ => rfl

theorem init : Statement .init := fun _ => rfl

theorem initrec (cmd : Byte) (args : List Byte) : Statement (.initrec cmd args) := by
  intro h
  have hn : args.length ≤ 127 := by simpa [Instr.wf] using h
  simp [encode, Instr.isRequest, recLen, argcCount_argcByte false hn, argcFlag_argcByte false hn]
  omega

theorem initrecD (cmd : Byte) (args : List Byte) (d : Byte) : Statement (.initrecD cmd args d) := by
  intro h
  have hn : args.length ≤ 127 := by simpa [Instr.wf] using h
  simp [encode, Instr.isRequest, recLen, argcCount_argcByte true hn, argcFlag_argcByte true hn]
  omega

end Sys2Proof.Laws.EncodeLength
end

