-- ==== Sys2Proof/Laws/Table.lean ====
section
/-! SUPPORT. The record-by-record interpreter of the machine and the walks of `Machine/TableSpec.lean`
read the ROM alike. -/

namespace Sys2Proof.Machine

/-- A record stands whole at the front of the bytes exactly when its length fits. -/
theorem decodeRecord_ok_iff (bs : List Byte) :
    (∃ r rest, decodeRecord bs = .ok (r, rest)) ↔ ∃ argc, bs[1]? = some argc ∧ recLen argc ≤ bs.length := by
  constructor
  · rintro ⟨r, rest, h⟩
    obtain ⟨argc, rfl, h1, h2⟩ := decodeRecord_ok h
    refine ⟨argc, rfl, ?_⟩
    simp only [recLen, List.length_cons, List.length_append, ← h1, ← h2]
    cases r.delay <;> simp <;> omega
  · rintro ⟨argc, h, hl⟩
    match bs with
    | [] => simp at h
    | [_] => simp at h
    | cmd :: a :: bs =>
      simp only [List.getElem?_cons_succ, List.getElem?_cons_zero, Option.some.injEq] at h
      subst h
      simp only [recLen, List.length_cons] at hl
      cases ht : takeArgs (argcCount a) bs with
      | none => have := takeArgs_eq_none_iff.mp ht; split at hl <;> omega
      | some p =>
        obtain ⟨args, rest⟩ := p
        obtain ⟨rfl, hlen⟩ := eq_append_of_takeArgs ht
        by_cases hf : argcFlag a
        · match rest with
          | [] => simp [hf, hlen] at hl; omega
          | d :: rest => exact ⟨_, _, by simp only [decodeRecord, ht, hf]; rfl⟩
        · exact ⟨_, _, by simp only [decodeRecord, ht, hf]; rfl⟩

/-- The record's length is the number of bytes that its reading takes. -/
theorem drop_of_decodeRecord {bs rest : List Byte} {r : Record} (h : decodeRecord bs = .ok (r, rest)) :
    bs.drop (2 + r.args.length + r.delay.toList.length) = rest := by
  obtain ⟨argc, hb, _, _⟩ := decodeRecord_ok h
  rw [hb]
  have e : 2 + r.args.length + r.delay.toList.length = (r.args ++ r.delay.toList).length + 1 + 1 := by
    simp; omega
  rw [e, List.drop_succ_cons, List.drop_succ_cons, ← List.append_assoc, List.drop_left]

theorem expandArgs_of_takeArgs {bs args rest : List Byte} {n tp : Nat}
    (h : takeArgs n (bs.drop tp) = some (args, rest)) :
    expandArgs (Memory.ofBytes bs) n tp = some (args.flatMap (frame true)) := by
  induction n generalizing tp args with
  | zero =>
    simp only [takeArgs, Option.some.injEq, Prod.mk.injEq] at h
    obtain ⟨rfl, _⟩ := h
    rfl
  | succ n ih =>
    cases hb : bs.drop tp with
    | nil => rw [hb] at h; simp [takeArgs] at h
    | cons b rest' =>
      rw [hb] at h
      simp only [takeArgs] at h
      split at h
      · next a r hr =>
        simp only [Option.some.injEq, Prod.mk.injEq] at h
        obtain ⟨rfl, rfl⟩ := h
        have hd : bs.drop (tp + 1) = rest' := by rw [← List.drop_drop, hb]; rfl
        have hg : bs[tp]? = some b := by
          have := congrArg (·[0]?) hb; simpa using this
        rw [expandArgs, Memory.read_ofBytes, hg, ih (tp := tp + 1) (args := a) (by rw [hd]; exact hr)]
        simp
      · simp at h

/-- One record of the walk of rule R164. -/
theorem expandRecords_succ {bs rest : List Byte} {tp : Nat} {r : Record} (k : Nat)
    (h : decodeRecord (bs.drop tp) = .ok (r, rest)) :
    expandRecords (Memory.ofBytes bs) (k + 1) tp =
      (expandRecords (Memory.ofBytes bs) k (tp + (2 + r.args.length + r.delay.toList.length))).map
        (recordOps r ++ ·) := by
  obtain ⟨argc, hb, h1, h2⟩ := decodeRecord_ok h
  have g0 : bs[tp]? = some r.cmd := by have := congrArg (·[0]?) hb; simpa using this
  have g1 : bs[tp + 1]? = some argc := by have := congrArg (·[1]?) hb; simpa using this
  have d2 : bs.drop (tp + 2) = r.args ++ (r.delay.toList ++ rest) := by rw [← List.drop_drop, hb]; rfl
  have ha := expandArgs_of_takeArgs (bs := bs) (n := argcCount argc) (tp := tp + 2) (args := r.args)
    (rest := r.delay.toList ++ rest) (by rw [d2, ← h1, takeArgs_append])
  have d3 : bs.drop (tp + 2 + argcCount argc) = r.delay.toList ++ rest := by
    rw [← List.drop_drop, d2, ← h1, List.drop_left]
  have hdl : expandDelay (Memory.ofBytes bs) (argcFlag argc) (tp + 2 + argcCount argc) =
      some (r.delay.map (fun d => MicroOp.wait (delayMs d))).toList := by
    rw [expandDelay, ← h2]
    cases hd : r.delay with
    | none => simp
    | some d =>
      rw [hd] at d3
      have : bs[tp + 2 + argcCount argc]? = some d := by
        have := congrArg (·[0]?) d3; simpa using this
      simp [this]
  have hrl : recLen argc = 2 + r.args.length + r.delay.toList.length := by
    rw [recLen, ← h1, ← h2]; cases r.delay <;> simp
  rw [expandRecords, Memory.read_ofBytes, Memory.read_ofBytes, g0, g1]
  simp only [ha, hdl, hrl]
  cases expandRecords (Memory.ofBytes bs) k (tp + (2 + r.args.length + r.delay.toList.length)) with
  | none => rfl
  | some x => simp [recordOps, recordFrames, commandFrame]; rfl

/-- One record of the walk of rule R77. -/
theorem wfWalk_succ {bs rest : List Byte} {tp : Nat} {r : Record} (k : Nat)
    (h : decodeRecord (bs.drop tp) = .ok (r, rest)) :
    wfWalk (Memory.ofBytes bs) (k + 1) tp =
      wfWalk (Memory.ofBytes bs) k (tp + (2 + r.args.length + r.delay.toList.length)) := by
  obtain ⟨argc, hb, h1, h2⟩ := decodeRecord_ok h
  have g1 : bs[tp + 1]? = some argc := by have := congrArg (·[1]?) hb; simpa using this
  have hrl : recLen argc = 2 + r.args.length + r.delay.toList.length := by
    rw [recLen, ← h1, ← h2]; cases r.delay <;> simp
  have hlen := congrArg List.length hb
  simp only [List.length_drop, List.length_cons, List.length_append] at hlen
  rw [wfWalk]
  simp only [Memory.romLen_ofBytes, Memory.read_ofBytes, g1]
  rw [if_neg (by omega), if_neg (by omega), hrl]

/-- Where no whole record stands, the walk of rule R77 ends the table as ill-formed. -/
theorem wfWalk_succ_of_truncated {bs : List Byte} {tp : Nat} (k : Nat)
    (h : ¬∃ r rest, decodeRecord (bs.drop tp) = .ok (r, rest)) :
    wfWalk (Memory.ofBytes bs) (k + 1) tp = false := by
  rw [decodeRecord_ok_iff] at h
  rw [wfWalk]
  simp only [Memory.romLen_ofBytes, Memory.read_ofBytes]
  split
  · rfl
  · split
    · rfl
    · next argc hg =>
      have : ¬recLen argc ≤ bs.length - tp := fun h' => h ⟨argc, by simpa using hg, by simpa using h'⟩
      rw [if_pos (by omega)]

theorem fits_of_expandArgs {bs : List Byte} {n tp : Nat} {ops : List MicroOp}
    (h : expandArgs (Memory.ofBytes bs) n tp = some ops) : n = 0 ∨ tp + n ≤ bs.length := by
  induction n generalizing tp ops with
  | zero => exact .inl rfl
  | succ n ih =>
    rw [expandArgs] at h
    split at h
    · next x y h1 h2 =>
      rw [Memory.read_ofBytes] at h1
      have : tp < bs.length := (List.getElem?_eq_some_iff.mp h1).1
      rcases ih h2 with h | h <;> exact .inr (by omega)
    · simp at h

/-- Where no whole record stands, the walk of rule R164 leaves the ROM. -/
theorem expandRecords_succ_of_truncated {bs : List Byte} {tp : Nat} (k : Nat)
    (h : ¬∃ r rest, decodeRecord (bs.drop tp) = .ok (r, rest)) :
    expandRecords (Memory.ofBytes bs) (k + 1) tp = none := by
  rw [decodeRecord_ok_iff] at h
  cases hx : expandRecords (Memory.ofBytes bs) (k + 1) tp with
  | none => rfl
  | some ops =>
    exfalso
    rw [expandRecords] at hx
    split at hx
    · next cmd argc h0 h1 =>
      rw [Memory.read_ofBytes] at h1
      refine h ⟨argc, by simpa using h1, ?_⟩
      split at hx
      · next a w rr ha hw hr =>
        have h1' : tp + 1 < bs.length := (List.getElem?_eq_some_iff.mp h1).1
        have hD : argcFlag argc = true → tp + 2 + argcCount argc < bs.length := by
          intro hf
          rw [expandDelay, hf] at hw
          simp only [if_true] at hw
          split at hw
          · next d hd => rw [Memory.read_ofBytes] at hd; exact (List.getElem?_eq_some_iff.mp hd).1
          · simp at hw
        have hA := fits_of_expandArgs ha
        rw [recLen, List.length_drop]
        split
        · next hf => have := hD hf; omega
        · omega
      · simp at hx
    · simp at hx

end Sys2Proof.Machine
end

