-- ==== Sys2Proof/Tests/Slice0.lean ====
section
/-! SUPPORT. The model's own tests, with expected results from the spec's worked examples and vectors
(`95_test_vectors.md`, test set TPS), and a witness for every statement that has hypotheses. -/

namespace Sys2Proof.Machine.Tests

/-! ### Small states -/

/-- A READY and idle block of the test set. -/
def ready : State := { State.reset with ps := .ready }

/-- READY, with a streamed-to window (`95_test_vectors.md` Q7). -/
def streaming : State := { ready with win := .streaming }

/-- READY, with the offsets F0 and 02. -/
def withOffsets : State :=
  { ready with cfg := { ready.cfg with colOff := 0xF0, rowOff := 0x02 } }

/-- READY, in the course of one command frame. -/
def sending : State := { ready with q := frame false 0x2A }

/-- INITIALIZING, in a wait of 500 of which `left` ticks are left. -/
def waiting (left : Nat) : State :=
  { State.reset with
    ps := .initializing, q := [.wait 500, .endInit], dly := BitVec.ofNat 16 left, wact := true }

/-- INITIALIZING, before a wait of `n`. -/
def beforeWait (n : WaitMs) : State :=
  { State.reset with ps := .initializing, q := [.wait n, .endInit] }

/-- INITIALIZING, before its EndInit. -/
def beforeEndInit : State := { State.reset with ps := .initializing, q := [.endInit] }

/-- The state with another init table in the ROM. -/
def withRom (bs : List Byte) (s : State) : State :=
  { s with cfg := { s.cfg with rom := Memory.ofBytes bs } }

/-- The state without a reset line. -/
def withoutRst (s : State) : State := { s with cfg := { s.cfg with hasRst := false } }

/-- What a step leaves, where it gives a next state. -/
def after (o : Host.Outcome State Fault Refusal) : Option State :=
  match o with
  | .next s => some s
  | .fault _ => none
  | .refused _ => none

/-- Whether a step was refused for its table. -/
def illFormed (o : Host.Outcome State Fault Refusal) : Bool :=
  match o with
  | .refused .tableIllFormed => true
  | _ => false

/-- The frames of the queue after a step, and the queue's length. -/
def sent (o : Host.Outcome State Fault Refusal) : Option (List BusFrame × Nat) :=
  (after o).map (fun s => (recoveredFrames (runEvents s.q), s.q.length))

/-! ### WellFormed and the decoder -/

/-- A record of 128 arguments has no encoding (rule R74). -/
theorem test_wf_initrec_128_refused : (Instr.initrec 0x3A (List.replicate 128 0)).wf = false := by decide +kernel

theorem test_wf_initrecD_128_refused : (Instr.initrecD 0x3A (List.replicate 128 0) 0).wf = false := by
  decide +kernel

theorem test_wf_127_accepted :
    (Instr.initrec 0x3A (List.replicate 127 0)).wf = true ∧
    (Instr.initrecD 0x3A (List.replicate 127 0) 0).wf = true := by decide +kernel

/-- Rule R79: `00000001 vvvvvvvv`. -/
theorem test_decode_wrcmd : decodeRequest [0b00000001, 0b00101010] = .ok (.wrcmd 0x2A, []) := by decide

/-- Rule R79: `00000010 vvvvvvvv`. -/
theorem test_decode_wrdata : decodeRequest [0b00000010, 0b10100101] = .ok (.wrdata 0xA5, []) := by decide

/-- Rule R79: `00000011 hhhhhhhh llllllll`. -/
theorem test_decode_wrpix :
    decodeRequest [0b00000011, 0b00000111, 0b11100000] = .ok (.wrpix 0x07E0, []) := by decide

/-- Rule R79: `00000100 aaaaaaaa bbbbbbbb cccccccc eeeeeeee`. -/
theorem test_decode_setwin :
    decodeRequest [0b00000100, 0b00001010, 0b00010100, 0b00000101, 0b00000010] =
      .ok (.setwin 10 20 5 2, []) := by decide

/-- Rule R79: `00000101 rrrrrrrr`. -/
theorem test_decode_setrot : decodeRequest [0b00000101, 0b11111110] = .ok (.setrot 0xFE, []) := by decide

/-- Rule R79: `00000110`. -/
theorem test_decode_init : decodeRequest [0b00000110] = .ok (.init, []) := by decide

/-- Rule R165: `cmd, 0nnnnnnn, a1, ..., an`. -/
theorem test_decode_initrec :
    decodeRecord [0b11000000, 0b00000011, 1, 2, 3] =
      .ok ({ cmd := 0xC0, args := [1, 2, 3], delay := none }, []) := by decide

/-- Rule R166: `cmd, 1nnnnnnn, a1, ..., an, d`. -/
theorem test_decode_initrecD :
    decodeRecord [0b10110001, 0b10000010, 1, 2, 0] =
      .ok ({ cmd := 0xB1, args := [1, 2], delay := some 0 }, []) := by decide

/-- Rule R81, and a request that is not whole (rule R78). -/
theorem test_decode_rejects :
    decodeRequest [0x00, 0x11] = .error (.undefinedOpcode 0x00) ∧
    decodeRequest [0x07] = .error (.undefinedOpcode 0x07) ∧
    decodeRequest [0xFF] = .error (.undefinedOpcode 0xFF) ∧
    decodeRequest [] = .error .truncated ∧ decodeRequest [0x03, 0xF8] = .error .truncated ∧
    decodeRecord [0x11, 0x80] = .error .truncated ∧ decodeRecord [0x11] = .error .truncated := by decide

/-- A word of the opcode table: WRCMD 2A as the number 0x012A, and INITREC_D as 0x11800A. -/
theorem test_decodeTableWord :
    decodeTableWord 16 0x012A = some (.wrcmd 0x2A) ∧
    decodeTableWord 24 0x11800A = some (.initrecD 0x11 [] 0x0A) := by decide

/-- The very next step after reset is the acceptance of the word's request (Q2). -/
theorem test_withFetchWord_init :
    (after (step (State.reset.withFetchWord 8 0x06))).map State.status = some 0x05 := by decide

/-! ### Requests -/

/-- `95_test_vectors.md` 2.1: WRCMD 2A, and Q8. -/
theorem test_wrcmd :
    sent (exec (.wrcmd 0x2A) streaming) = some ([.command 0x2A], 29) ∧
    (after (exec (.wrcmd 0x2A) streaming)).map (·.win) = some .closed := by decide

/-- X1: WRCMD 11 in UNINIT. -/
theorem test_wrcmd_uninit :
    (after (exec (.wrcmd 0x11) State.reset)).map (fun s => (s.status, s.q)) = some (0x10, []) := by decide

/-- `95_test_vectors.md` 2.1: WRDATA A5, Q7 and Q9. -/
theorem test_wrdata :
    sent (exec (.wrdata 0xA5) ready) = some ([.data 0xA5], 29) ∧
    (after (exec (.wrdata 0xA5) ready)).map (·.win) = some .closed ∧
    (after (exec (.wrdata 0xA5) streaming)).map (·.win) = some .streaming := by decide

/-- WRDATA 01 leaves SDA at 1 (`95_test_vectors.md` 2.1). -/
theorem test_wrdata_sda : (linesAfter (frame true 0x01) Lines.reset).sda = true := by decide

/-- `95_test_vectors.md` 2.1: WRPIX 07E0. -/
theorem test_wrpix : sent (exec (.wrpix 0x07E0) ready) = some ([.data 0x07, .data 0xE0], 58) := by decide +kernel

/-- Q6: WRPIX in an open window. -/
theorem test_wrpix_streams :
    (after (exec (.wrpix 0xF800) { ready with win := .opened })).map State.status = some 0x46 := by decide

/-- `95_test_vectors.md` 2.4: SETWIN 05, 10, 20, FE with the offsets F0 and 02. -/
theorem test_setwin_wraps :
    sent (exec (.setwin 0x05 0x10 0x20 0xFE) withOffsets) =
      some ([.command 0x2A, .data 0xF5, .data 0x10, .command 0x2B, .data 0x12, .data 0x00,
        .command 0x2C], 203) := by decide +kernel

/-- Q5: the status while SETWIN is sent. -/
theorem test_setwin_status :
    (after (exec (.setwin 3 4 3 4) ready)).map State.status = some 0x26 := by decide

/-- `95_test_vectors.md` 2.4: SETROT 05. -/
theorem test_setrot :
    sent (exec (.setrot 0x05) ready) = some ([.command 0x36, .data 0xA0], 58) ∧
    (after (exec (.setrot 0x05) ready)).map (fun s => (s.vpRot, s.vpW, s.vpH)) = some (1, 69, 97) := by
  decide +kernel

/-- X4: SETROT 1 in UNINIT. -/
theorem test_setrot_uninit :
    (after (exec (.setrot 1) State.reset)).map (fun s => (s.vpRot, s.vpW, s.vpH, s.status)) =
      some (0, 97, 69, 0x10) := by decide

/-- S9 and `95_test_vectors.md` 2.3, k = 1: the length of INIT's expansion. -/
theorem test_init_length :
    (after (exec .init State.reset)).map (fun s => s.q.length) = some 331 ∧
    (after (exec .init (withoutRst State.reset))).map (fun s => s.q.length) = some 325 := by decide +kernel

/-- A table of no record (rule R168), and one that is ill-formed (rule R77). -/
theorem test_init_tables :
    (after (exec .init (withRom [0x00] ready))).map (fun s => s.q.length) = some 7 ∧
    illFormed (exec .init (withRom [0x01, 0x11, 0x80] ready)) = true := by decide

/-- `95_test_vectors.md` 2.3: 3A 01 05. -/
theorem test_initrec :
    sent (exec (.initrec 0x3A [0x05]) State.reset) = some ([.command 0x3A, .data 0x05], 58) ∧
    (after (exec (.initrec 0x3A [0x05]) State.reset)).map (·.tp) = some 3 := by decide +kernel

/-- `95_test_vectors.md` 2.3: 29 80 FF waits 500 ticks. -/
theorem test_initrecD :
    (after (exec (.initrecD 0x29 [] 0xFF) State.reset)).map (fun s => (s.q.drop 29, s.tp)) =
      some ([.wait 500], 3) := by decide

/-- B1 82 01 02 00: the wait of 0 is a micro-op (`95_test_vectors.md` 2.3). -/
theorem test_initrecD_zero :
    (after (exec (.initrecD 0xB1 [1, 2] 0) State.reset)).map (fun s => (s.q.drop 87, s.tp)) =
      some ([.wait 0], 5) := by decide

/-! ### The other steps -/

/-- X2, X3 and X6: undefined opcodes. -/
theorem test_undefinedOpcode :
    (after (step { State.reset with port := [0x07] })).map State.status = some 0x08 ∧
    (after (step { State.reset with port := [0x00, 0x06] })).map (fun s => (s.status, s.port)) =
      some (0x08, [0x06]) ∧
    (after (step { ready with port := [0xFF] })).map State.status = some 0x0A := by decide

/-- T1: the tick of a wait, and its end. -/
theorem test_wait_ticks :
    (after (step (waiting 1))).map (fun s => (s.dly, s.trace)) = some (0, [.reset, .tick]) ∧
    (after (step (waiting 0))).map (fun s => (s.q, s.wact, s.trace)) =
      some ([.endInit], false, [.reset, .waitEnd]) := by decide

/-- Q4 and Z2: the end of INIT, and a Reset. -/
theorem test_endInit_and_reset :
    (after (step beforeEndInit)).map State.status = some 0x02 ∧
    (after (turn .resetInput streaming)).map (fun s => (s.status, s.trace)) =
      some (0x00, [.reset, .reset]) := by decide

/-- `95_test_vectors.md` 2.1: a Reset after ten writes of WRCMD 2A leaves no frame. -/
theorem test_partialFrame :
    receive .rising (.reset :: runEvents ((frame false 0x2A).take 10)) =
      { lines := { csN := false, scl := false, sda := false, lcdRst := true }
        buf := [false, false, false], frames := [] } ∧
    (receive .rising (.reset :: runEvents ((frame false 0x2A).take 10) ++ [.reset])).buf = [] := by decide

/-- `95_test_vectors.md` 2.1: level changes of WRCMD 2A and WRDATA FF from SDA = 0. -/
theorem test_levelTrace :
    (levelTrace Lines.reset (runEvents (frame false 0x2A))).length = 26 ∧
    (levelTrace Lines.reset (runEvents (frame true 0xFF))).length = 21 := by decide

/-- The rows of `95_test_vectors.md` 2.3 on well-formedness. -/
theorem test_romWellFormed :
    romWellFormed (Memory.ofBytes []) = false ∧ romWellFormed (Memory.ofBytes [0x00]) = true ∧
    romWellFormed (Memory.ofBytes [0x00, 0xFF, 0xFF]) = true ∧
    romWellFormed (Memory.ofBytes [0x01, 0x11]) = false ∧
    romWellFormed (Memory.ofBytes [0x01, 0x11, 0x00]) = true ∧
    romWellFormed (Memory.ofBytes [0x01, 0x11, 0x80]) = false ∧
    romWellFormed (Memory.ofBytes [0x01, 0x11, 0x80, 0x0A]) = true ∧
    romWellFormed (Memory.ofBytes [0x01, 0x11, 0x02, 0xAA]) = false ∧
    romWellFormed (Memory.ofBytes [0x02, 0x11, 0x00]) = false ∧
    romWellFormed State.reset.cfg.rom = true := by decide

/-- The ROM image of the test set (`95_test_vectors.md` section 0). -/
theorem test_fixedImage :
    fixedImage Params.tps =
      [0x08, 0x25, 0x01, 0x40, 0x11, 0x80, 0x0A, 0x13, 0x80, 0x0A, 0x20, 0x80, 0x0A, 0x38, 0x80, 0x0A,
       0x36, 0x01, 0x00, 0x3A, 0x01, 0x05, 0x29, 0x80, 0xFF] := by decide

/-- S12. -/
theorem test_delayMs : delayMs 0xFF = 500 ∧ delayMs 0xFE = 254 ∧ delayMs 0x00 = 0 := by decide

/-! ### The host and the assembler -/

/-- S1 to S3. -/
theorem test_packColor565 :
    packColor565 0xFF 0xFF 0xFF = 0xFFFF ∧ packColor565 0 0 0 = 0 ∧ packColor565 0xF8 0 0 = 0xF800 := by
  decide

/-- The examples of rules R232 to R235. -/
theorem test_primitives :
    setPixelRequests 97 69 3 4 0xF800 = [.setwin 3 4 3 4, .wrpix 0xF800] ∧
    setPixelRequests 97 69 97 0 0 = [] ∧ setPixelRequests 97 69 (-1) 0 0 = [] ∧
    horizontalRunRequests 97 69 90 0 20 7 = .setwin 90 0 96 0 :: List.replicate 7 (.wrpix 7) ∧
    verticalRunRequests 97 69 0 60 20 7 = .setwin 0 60 0 68 :: List.replicate 9 (.wrpix 7) ∧
    fillRectRequests 97 69 0 0 2 1 7 = .setwin 0 0 2 1 :: List.replicate 6 (.wrpix 7) ∧
    fillOrder 2 1 = [(1, 2), (1, 1), (1, 0), (0, 2), (0, 1), (0, 0)] := by decide

/-- Rules R237 and R238. -/
theorem test_invert_and_rotation :
    callRequests Params.tps 97 69 (.invertDisplay true) = [.wrcmd 0x21] ∧
    callRequests Params.tps 97 69 (.invertDisplay false) = [.wrcmd 0x20] ∧
    callRequests Params.tps 97 69 (.setRotation (-1)) = [.setrot 3] := by decide

/-- init() is INIT and then a hold until READY (rule R239). -/
theorem test_initCall :
    (after (step { State.reset with calls := [.init] })).map (fun s => (s.port, s.calls)) =
      some ([0x06], [.awaitReady]) ∧
    (after (step { State.reset with calls := [.awaitReady] })).map (·.calls) = some [.awaitReady] ∧
    (after (step { ready with calls := [.awaitReady] })).map (·.calls) = some [] := by decide

/-- Rule R85. -/
theorem test_assembleLine :
    assembleLine "WRPIX 0xF800".toList = some [0x03, 0xF8, 0x00] ∧
    assembleLine "setwin 3, 4, 3, 4".toList = some [0x04, 3, 4, 3, 4] ∧
    assembleLine "WRCMD 256".toList = none ∧ assembleLine ".byte 7".toList = some [0x07] := by decide

/-- Rule R86. -/
theorem test_assembleTable :
    assembleTable [".records 2".toList, "REC 0x3A, 5".toList, "REC 0x29 ; delay 500".toList] =
      some [0x02, 0x3A, 0x01, 0x05, 0x29, 0x80, 0xFF] ∧
    assembleTable [".records 2".toList, "REC 0x3A, 5".toList] = none := by decide

/-! ### States that meet the invariant -/

/-- An idle block in UNINIT or READY meets the invariant. -/
theorem inv_idle (p : ProtocolState) (hp : p ≠ .initializing) (cfg : Config) (hr : cfg.rom.wf = true) :
    MachineInv { State.resetWith cfg with ps := p } where
  viewport := ⟨fun _ => ⟨rfl, rfl⟩, fun h => by simp [State.resetWith] at h⟩
  endsIdle := ⟨rfl, rfl⟩
  noResetLine := fun _ => ⟨fun _ h => by simp [State.resetWith] at h, rfl⟩
  waiting := fun h => by simp [State.resetWith] at h
  notWaiting := fun _ => rfl
  uninitIdle := fun _ => rfl
  initializing := ⟨fun h => absurd h hp, fun ⟨ops, h, _⟩ => by simp [State.resetWith] at h⟩
  ready := fun _ h => by simp [State.resetWith] at h
  rom := hr

theorem inv_ready : MachineInv ready := inv_idle .ready (by decide) _ (by decide)

theorem inv_reset : MachineInv State.reset := inv_idle .uninit (by decide) _ (by decide)

/-- A block in the course of a frame meets the invariant. -/
theorem inv_sending : MachineInv sending where
  viewport := inv_ready.viewport
  endsIdle := ⟨rfl, rfl⟩
  noResetLine := fun h => absurd h (by decide)
  waiting := fun h => absurd h (by decide)
  notWaiting := fun _ => rfl
  uninitIdle := fun h => absurd h (by decide)
  initializing := by
    refine ⟨fun h => absurd h (by decide), fun ⟨ops, h, _⟩ => ?_⟩
    have : MicroOp.endInit ∈ sending.q := by rw [h]; simp
    exact absurd this (by decide)
  ready := fun _ => by decide
  rom := by decide

/-- A block in a wait of INIT meets the invariant, with every number of ticks left. -/
theorem inv_waiting (k : Nat) (hk : k ≤ 500) : MachineInv (waiting k) where
  viewport := inv_ready.viewport
  endsIdle := ⟨rfl, rfl⟩
  noResetLine := fun h => by simp [waiting, State.reset, State.resetWith, Config.ofParams, Params.tps] at h
  waiting := fun _ => ⟨500, [.endInit], rfl, by simp [waiting]; omega⟩
  notWaiting := fun h => by simp [waiting] at h
  uninitIdle := fun h => by simp [waiting] at h
  initializing := ⟨fun _ => ⟨[.wait 500], rfl, by simp⟩, fun _ => rfl⟩
  ready := fun h => by simp [waiting] at h
  rom := inv_ready.rom

/-- Before the EndInit of INIT the invariant holds. -/
theorem inv_beforeEndInit : MachineInv beforeEndInit where
  viewport := inv_ready.viewport
  endsIdle := ⟨rfl, rfl⟩
  noResetLine := fun h => absurd h (by decide)
  waiting := fun h => absurd h (by decide)
  notWaiting := fun _ => rfl
  uninitIdle := fun h => absurd h (by decide)
  initializing := ⟨fun _ => ⟨[], rfl, by simp⟩, fun _ => rfl⟩
  ready := fun h => absurd h (by decide)
  rom := by decide

/-! ### A witness for every statement with hypotheses -/

theorem witness_PerformWritesLine : sending.q = .setLine .csN false :: sending.q.tail := by decide

/-- Both clauses, at both ends of a wait's range. -/
theorem witness_PerformBeginsAndEndsWait :
    (beforeWait 0).q = [.wait 0, .endInit] ∧ (beforeWait 0).wact = false ∧
    (beforeWait 500).q = [.wait 500, .endInit] ∧ (beforeWait 500).wact = false ∧
    (waiting 0).q = [.wait 500, .endInit] ∧ (waiting 0).wact = true ∧ (waiting 0).dly = 0 := by decide

/-- Both clauses, with one tick and with all ticks left. -/
theorem witness_WaitsHoldForTheirTicks :
    ((waiting 1).q = [.wait 500, .endInit] ∧ (waiting 1).wact = true ∧ (waiting 1).dly ≠ 0) ∧
    ((waiting 500).wact = true ∧ (waiting 500).dly ≠ 0) ∧
    MachineInv State.reset ∧ WaitsCounted State.reset ∧ ∃ t, step State.reset = .next t :=
  ⟨by decide, by decide, inv_reset, rfl, _, rfl⟩

theorem witness_PerformEndsInit : beforeEndInit.q = [.endInit] := by decide

/-- Both clauses, with one tick left, with none left, and outside a wait. -/
theorem witness_TickCountsDown :
    ((waiting 1).wact = true ∧ 0 < (waiting 1).dly.toNat) ∧
    ¬((waiting 0).wact = true ∧ 0 < (waiting 0).dly.toNat) ∧
    ¬(ready.wact = true ∧ 0 < ready.dly.toNat) := by decide

theorem witness_HostIsHeldWhileBusy : sending.q ≠ [] ∧ (Instr.wrcmd 0x11).isRequest = true := by decide

theorem witness_PendingMicroOpsRunInOrder :
    (MachineInv sending ∧ sending.q ≠ [] ∧ mover sending ≠ .resetInput ∧ ∃ t, step sending = .next t) ∧
    (mover { sending with sched := [.resetInput] } = .resetInput ∧
      ∃ t, step { sending with sched := [.resetInput] } = .next t) :=
  ⟨⟨inv_sending, by decide, by decide, _, rfl⟩, by decide, _, rfl⟩

/-- The four clauses. -/
theorem witness_TurnsGoByScheduleOrFairness :
    ({ ready with port := [0x06] }.sched = [] ∧ { ready with port := [0x06] }.q = []) ∧
    ((waiting 1).sched = [] ∧ (waiting 1).q ≠ [] ∧ (waiting 1).held = true) ∧
    (sending.sched = [] ∧ sending.q ≠ [] ∧ sending.held = false) ∧
    (ready.sched = [] ∧ Quiescent ready) :=
  ⟨by decide, by decide, by decide, rfl, rfl, rfl, rfl⟩

theorem witness_StepRunsDecodedRequest :
    mover { ready with port := [0x01, 0x2A, 0x06] } = .host ∧
    { ready with port := [0x01, 0x2A, 0x06] }.q = [] ∧
    decodeRequest { ready with port := [0x01, 0x2A, 0x06] }.port = .ok (.wrcmd 0x2A, [0x06]) := by decide

theorem witness_InterpreterRunsDecodedRecords :
    decodeRecord ((withRom [0x01, 0x3A, 0x01, 0x05] { ready with tp := 1 }).cfg.rom.bytesFrom 1) =
      .ok ({ cmd := 0x3A, args := [0x05], delay := none }, []) ∧
    (withRom [0x01, 0x3A, 0x01, 0x05] { ready with tp := 1 }).cfg.rom.wf = true := by decide

/-- The hypotheses of the requests' result statements: idle, and both protocol states of their clauses. -/
theorem witness_requests :
    (ready.q = [] ∧ ready.ps ≠ .uninit) ∧ (State.reset.q = [] ∧ State.reset.ps = .uninit) := by decide

theorem witness_WrcmdSendsCommandFrame :
    (ready.q = [] ∧ ready.ps ≠ .uninit) ∧ (State.reset.q = [] ∧ State.reset.ps = .uninit) := witness_requests

theorem witness_WrdataSendsDataFrame :
    (ready.q = [] ∧ ready.ps ≠ .uninit) ∧ (State.reset.q = [] ∧ State.reset.ps = .uninit) := witness_requests

theorem witness_WrpixSendsHighThenLowByte :
    (ready.q = [] ∧ ready.ps ≠ .uninit) ∧ (State.reset.q = [] ∧ State.reset.ps = .uninit) := witness_requests

theorem witness_SetwinProgramsWindow :
    (ready.q = [] ∧ ready.ps ≠ .uninit) ∧ (State.reset.q = [] ∧ State.reset.ps = .uninit) := witness_requests

/-- Both parities of the rotation too, at the ends of the operand's range. -/
theorem witness_SetrotTurnsViewport :
    ((ready.q = [] ∧ ready.ps ≠ .uninit) ∧ (State.reset.q = [] ∧ State.reset.ps = .uninit)) ∧
    (0 : Byte).toNat % 2 = 0 ∧ (255 : Byte).toNat % 2 = 1 := ⟨witness_requests, by decide⟩

theorem witness_InitIsAcceptedInEveryState :
    State.reset.q = [] ∧ State.reset.cfg.rom.wf = true ∧ romWellFormed State.reset.cfg.rom = true ∧
    ready.q = [] ∧ ready.cfg.rom.wf = true ∧ romWellFormed ready.cfg.rom = true := by decide

theorem witness_InitrecSendsItsFrames :
    ([] : List Byte).length ≤ 127 ∧ (List.replicate 127 (0 : Byte)).length ≤ 127 := by decide +kernel

theorem witness_InitrecDSendsItsFramesAndWaits :
    ([] : List Byte).length ≤ 127 ∧ (List.replicate 127 (0 : Byte)).length ≤ 127 := by decide +kernel

/-- A request that is accepted, one that is held, one that faults, and INIT. -/
theorem witness_RequestsKeepTheRest :
    ((Instr.wrcmd 0x2A).isRequest = true ∧ ∃ t, exec (.wrcmd 0x2A) ready = .next t) ∧
    (∃ t, exec (.wrcmd 0x2A) sending = .next t) ∧ (∃ t, exec (.setrot 1) State.reset = .next t) ∧
    ∃ t, exec .init State.reset = .next t :=
  ⟨⟨rfl, _, rfl⟩, ⟨_, rfl⟩, ⟨_, rfl⟩, _, rfl⟩

theorem witness_RecordsKeepTheRest :
    (∃ t, exec (Record.toInstr { cmd := 0x3A, args := [0x05], delay := none }) ready = .next t) ∧
    ∃ t, exec (Record.toInstr { cmd := 0x29, args := [], delay := some 0xFF }) ready = .next t :=
  ⟨⟨_, rfl⟩, _, rfl⟩

/-- The opcodes at the edges of the undefined ranges. -/
theorem witness_UndefinedOpcodeRaisesIllreq :
    mover { ready with port := [0x00] } = .host ∧ ready.q = [] ∧
    ((0x00 : Byte).toNat = 0 ∧ 7 ≤ (0x07 : Byte).toNat ∧ 7 ≤ (0xFF : Byte).toNat) ∧
    mover { State.reset with port := [0x07, 0x06] } = .host ∧ State.reset.q = [] := by decide

theorem witness_RequestBeforeInitRaisesNotinit :
    State.reset.q = [] ∧ State.reset.ps = .uninit ∧ (Instr.setrot 1).isRequest = true ∧
    Instr.setrot 1 ≠ .init := by decide

theorem witness_FaultedRequestIsDropped :
    ∃ t, step { ready with port := [0xFF] } = .next t ∧
      t.trace = { ready with port := [0xFF] }.trace ++ [.accept [0xFF], .fault .illreq] ∧
      Event.fault .illreq ∈ [Event.accept [0xFF], .fault .illreq] := ⟨_, rfl, by decide, by decide⟩

/-- Both clauses, from a state with both bits set. -/
theorem witness_FaultBitsAreSticky :
    (∃ t, step { ready with fIllreq := true, fNotinit := true } = .next t) ∧
    mover { ready with fIllreq := true, fNotinit := true } ≠ .resetInput ∧
    (∃ t, step { ready with fIllreq := true, sched := [.resetInput] } = .next t) ∧
    mover { ready with fIllreq := true, sched := [.resetInput] } = .resetInput :=
  ⟨⟨_, rfl⟩, by decide, ⟨_, rfl⟩, by decide⟩

/-- The state in which INIT is refused, and its table. -/
theorem witness_OnlyIllFormedTableStops :
    (withRom [0x01, 0x11] { ready with port := [0x06] }).cfg.rom.wf = true ∧
    romWellFormed (withRom [0x01, 0x11] { ready with port := [0x06] }).cfg.rom = false ∧
    Offers (withRom [0x01, 0x11] { ready with port := [0x06] }) .init ∧
    step (withRom [0x01, 0x11] { ready with port := [0x06] }) = .refused .tableIllFormed :=
  ⟨by decide, by decide, ⟨by decide, rfl, [], rfl⟩, rfl⟩

theorem witness_OnlySetrotWritesViewport :
    ∃ t, step { ready with port := [0x05, 0x01] } = .next t ∧ t.vpRot ≠ ready.vpRot :=
  ⟨_, rfl, by decide⟩

theorem witness_ViewportFollowsRotation :
    ViewportInv ready ∧ ∃ t, step { ready with port := [0x05, 0x01] } = .next t :=
  ⟨inv_ready.viewport, _, rfl⟩

theorem witness_ConfigurationIsConstant : ∃ t, step { ready with sched := [.resetInput] } = .next t :=
  ⟨_, rfl⟩

/-- The four clauses. -/
theorem witness_ProtocolStateTransitions :
    MachineInv ready ∧ (∃ t, step ready = .next t) ∧
    mover { ready with sched := [.resetInput] } = .resetInput ∧
    Offers { ready with port := [0x06] } .init ∧
    (MachineInv beforeEndInit ∧ mover beforeEndInit = .block ∧ beforeEndInit.q.head? = some .endInit) ∧
    (mover ready ≠ .resetInput ∧ ¬Offers ready .init ∧
      ¬(mover ready = .block ∧ ready.q.head? = some .endInit)) := by
  refine ⟨inv_ready, ⟨_, rfl⟩, by decide, ⟨by decide, rfl, [], rfl⟩, ⟨inv_beforeEndInit, by decide, rfl⟩,
    by decide, ?_, by decide⟩
  rintro ⟨_, _, _, h⟩
  simp [ready, State.reset, State.resetWith, decodeRequest] at h

/-- A request of each clause, in the window phases that the clause tells apart. -/
theorem witness_WindowPhaseTransitions :
    Offers { ready with port := [0x04, 0, 0, 0, 0] } (.setwin 0 0 0 0) ∧
    Offers { ready with port := [0x02, 7] } (.wrdata 7) ∧ ready.win = .closed ∧
    Offers { streaming with port := [0x02, 7] } (.wrdata 7) ∧ streaming.win ≠ .closed ∧
    Offers { ready with port := [0x06] } .init ∧
    mover { streaming with sched := [.resetInput] } = .resetInput ∧
    ∃ t, step { streaming with port := [0x01, 7] } = .next t ∧ t.win ≠ streaming.win :=
  ⟨⟨by decide, rfl, [], rfl⟩, ⟨by decide, rfl, [], rfl⟩, rfl, ⟨by decide, rfl, [], rfl⟩, by decide,
    ⟨by decide, rfl, [], rfl⟩, by decide, _, rfl, by decide⟩

theorem witness_IdleBusLevels : MachineInv ready ∧ ready.q = [] := ⟨inv_ready, rfl⟩

theorem witness_InvariantHoldsAtReset :
    (Config.ofParams Params.tps).rom.wf = true ∧ ({ Config.ofParams Params.tps with rom := [] } : Config).rom.wf = true := by
  decide

/-- In the middle of a frame, of a wait, and with one tick left. -/
theorem witness_EveryStepKeepsInvariant :
    (MachineInv sending ∧ ∃ t, step sending = .next t) ∧
    (MachineInv (waiting 500) ∧ ∃ t, step (waiting 500) = .next t) ∧
    (MachineInv (waiting 1) ∧ ∃ t, step (waiting 1) = .next t) :=
  ⟨⟨inv_sending, _, rfl⟩, ⟨inv_waiting 500 (by decide), _, rfl⟩, inv_waiting 1 (by decide), _, rfl⟩

theorem witness_NoResetLineWithoutHasRst :
    MachineInv { State.resetWith { Config.ofParams Params.tps with hasRst := false } with ps := .ready } ∧
    { Config.ofParams Params.tps with hasRst := false }.hasRst = false ∧
    ∃ t, step { State.resetWith { Config.ofParams Params.tps with hasRst := false } with ps := .ready } =
      .next t :=
  ⟨inv_idle .ready (by decide) _ (by decide), rfl, _, rfl⟩

/-- Both clauses: no wait begun, and a begun wait with all ticks and with none left. -/
theorem witness_EveryQueueCompletes :
    (sending.sched = [] ∧ sending.wact = false ∧ sending.dly = 0) ∧
    ((beforeWait 0).sched = [] ∧ (beforeWait 0).wact = false ∧ (beforeWait 0).dly = 0) ∧
    ((waiting 500).sched = [] ∧ (waiting 500).wact = true ∧ (waiting 500).q = [.wait 500, .endInit]) ∧
    ((waiting 0).sched = [] ∧ (waiting 0).wact = true ∧ (waiting 0).q = [.wait 500, .endInit]) := by decide

theorem witness_InitTwiceGivesSameEvents :
    MachineInv { State.reset with port := [0x06, 0x06] } ∧ State.reset.q = [] ∧ State.reset.sched = [] ∧
    State.reset.calls = [] ∧ { State.reset with port := [0x06, 0x06] }.port = [0x06, 0x06] ∧
    romWellFormed State.reset.cfg.rom = true :=
  ⟨{ inv_reset with }, rfl, rfl, rfl, rfl, by decide⟩

/-- The bits of a byte, at both ends. -/
theorem witness_SendByteIsMsbFirst : 0 < 8 ∧ 7 < 8 := by decide

theorem witness_FrameIsTwentyNineWrites :
    Lines.reset.scl = false ∧ (frame false 0x2A)[2]? = some (.setLine .scl true) ∧
    (frame false 0x2A)[26]? = some (.setLine .scl true) := by decide

theorem sync_reset : ReceiverInSync State.reset := ⟨by decide, by decide⟩

theorem sync_ready : ReceiverInSync ready := ⟨by decide, by decide⟩

/-- A request in READY, and INIT in UNINIT. -/
theorem witness_FramesAreRecoveredExactly :
    (MachineInv ready ∧ ReceiverInSync ready ∧ ready.q = [] ∧ (Instr.wrcmd 0x2A).isRequest = true ∧
      (ready.ps ≠ .uninit ∨ Instr.wrcmd 0x2A = .init) ∧ ∃ t, exec (.wrcmd 0x2A) ready = .next t) ∧
    (MachineInv State.reset ∧ ReceiverInSync State.reset ∧ State.reset.q = [] ∧
      (State.reset.ps ≠ .uninit ∨ Instr.init = .init) ∧ ∃ t, exec .init State.reset = .next t) :=
  ⟨⟨inv_ready, sync_ready, rfl, rfl, .inl (by decide), _, rfl⟩,
    inv_reset, sync_reset, rfl, .inr rfl, _, rfl⟩

/-- A sequence of three requests, and the empty one. -/
theorem witness_RequestSequencesReachTheReceiver :
    MachineInv { ready with port := requestBytes [.setwin 3 4 3 4, .wrpix 0xF800, .init] } ∧
    ReceiverInSync { ready with port := requestBytes [.setwin 3 4 3 4, .wrpix 0xF800, .init] } ∧
    ready.ps = .ready ∧ ready.q = [] ∧ ready.sched = [] ∧ ready.calls = [] ∧
    romWellFormed ready.cfg.rom = true ∧
    (∀ i ∈ ([.setwin 3 4 3 4, .wrpix 0xF800, .init] : List Instr), i.isRequest = true) ∧
    ready.port = requestBytes [] :=
  ⟨{ inv_ready with }, sync_ready, rfl, rfl, rfl, rfl, by decide, by decide, rfl⟩

theorem witness_ReceiverStaysInSync :
    MachineInv { ready with port := [0x01, 0x2A] } ∧ ReceiverInSync { ready with port := [0x01, 0x2A] } ∧
    ∃ t, step { ready with port := [0x01, 0x2A] } = .next t := ⟨{ inv_ready with }, sync_ready, _, rfl⟩

theorem witness_SamplingEdgeDoesNotMatter :
    (frame false 0x2A)[2]? = some (.setLine .scl true) ∧ (frame false 0x2A)[26]? = some (.setLine .scl true) ∧
    ready.q = [] ∧ (Instr.wrpix 0xF800).isRequest = true ∧ ∃ t, exec (.wrpix 0xF800) ready = .next t :=
  ⟨rfl, rfl, rfl, rfl, _, rfl⟩

/-- Both clauses of the parameter and of the level before the pulse. -/
theorem witness_ResetPulseWritesThreeLevels :
    Params.tps.hasRst = true ∧ { Params.tps with hasRst := false }.hasRst = false ∧
    Lines.reset.lcdRst = true ∧ { Lines.reset with lcdRst := false }.lcdRst = false := by decide

/-- The three clauses. -/
theorem witness_WellFormedTablesAreThoseThatExpand :
    (Memory.ofBytes [0x01, 0x11, 0x00]).wf = true ∧
    romWellFormed (Memory.ofBytes [0x01, 0x11, 0x00]) = true ∧
    (withRom [0x01, 0x11] ready).q = [] ∧ (withRom [0x01, 0x11] ready).cfg.rom.wf = true ∧
    romWellFormed (withRom [0x01, 0x11] ready).cfg.rom = false := by decide

/-- The empty table, and one with a record of 127 arguments. -/
theorem witness_TablesOfRecordsExpandInOrder :
    ([] : List Record).length ≤ 255 ∧
    ([{ cmd := 0xC0, args := List.replicate 127 0, delay := some 0 }] : List Record).length ≤ 255 ∧
    ∀ r ∈ ([{ cmd := 0xC0, args := List.replicate 127 0, delay := some 0 }] : List Record),
      r.args.length ≤ 127 := by decide +kernel

/-- No contrast argument, and 127 of them. -/
theorem witness_FixedTableExpansion :
    { Params.tps with contrastArgs := [] }.wf = true ∧
    { Params.tps with contrastArgs := List.replicate 127 0 }.wf = true := by decide +kernel

theorem witness_DecodeOfEncodeIsIdentity :
    (Instr.setwin 0 255 0 255).isRequest = true ∧
    (Record.toInstr { cmd := 0xC0, args := List.replicate 127 0, delay := some 0 }).wf = true ∧
    (Record.toInstr { cmd := 0xC0, args := [], delay := none }).wf = true := by decide +kernel

theorem witness_EncodeOfDecodeIsIdentity :
    decodeRequest [0x05, 0xFF, 0x06] = .ok (.setrot 0xFF, [0x06]) ∧
    decodeRecord [0x11, 0x80, 0x0A, 0x13] = .ok ({ cmd := 0x11, args := [], delay := some 0x0A }, [0x13]) := by
  decide

theorem witness_LengthsFollowFirstBytes :
    decodeRequest [0x04, 1, 2, 3, 4] = .ok (.setwin 1 2 3 4, []) ∧
    decodeRecord [0xB0, 0x00] = .ok ({ cmd := 0xB0, args := [], delay := none }, []) ∧
    ((0x00 : Byte).toNat = 0 ∧ 7 ≤ (0x07 : Byte).toNat) := by decide

/-- The numbers at the edges of the widths, and the assembly of a line. -/
theorem witness_RequestAssemblyChecksWidths :
    65535 < 65536 ∧ ¬65536 < 65536 ∧ 255 < 256 ∧ ¬256 < 256 ∧
    assembleRequest ['s', 'e', 't', 'r', 'o', 't'] [255] = some [0x05, 0xFF] ∧
    assembleRequest ['s', 'e', 't', 'w', 'i', 'n'] [0, 255, 0, 255] = some [0x04, 0x00, 0xFF, 0x00, 0xFF] ∧
    assembleRequest ['i', 'n', 'i', 't'] [] = some [0x06] ∧
    assembleRequest ['.', 'b', 'y', 't', 'e'] [7] = some [0x07] := by decide

/-- The corners of the viewport, and points beside it. -/
theorem witness_SetPixelDrawsInsideOnly :
    (0 ≤ (0 : Int) ∧ (0 : Int) < (97 : Byte).toNat ∧ 0 ≤ (0 : Int) ∧ (0 : Int) < (69 : Byte).toNat) ∧
    (0 ≤ (96 : Int) ∧ (96 : Int) < (97 : Byte).toNat ∧ 0 ≤ (68 : Int) ∧ (68 : Int) < (69 : Byte).toNat) ∧
    ¬(0 ≤ (97 : Int) ∧ (97 : Int) < (97 : Byte).toNat) ∧ ¬(0 ≤ (-1 : Int)) := by decide

/-- A run of one pixel in the corner, one that is clamped, and one of no length. -/
theorem witness_RunsAreClampedToViewport :
    (0 ≤ (96 : Int) ∧ (96 : Int) < (97 : Byte).toNat ∧ 0 ≤ (68 : Int) ∧ (68 : Int) < (69 : Byte).toNat ∧
      (0 : Int) < 1) ∧
    (0 ≤ (90 : Int) ∧ (90 : Int) < (97 : Byte).toNat ∧ (0 : Int) < 20) ∧ ¬(0 : Int) < 0 := by decide

/-- The empty rectangle, one at the edge, one outside, and both rotations of the viewport. -/
theorem witness_FillRectStreamsExtraRowAndColumn :
    (0 ≤ (0 : Int) ∧ (0 : Int) < (97 : Byte).toNat ∧ 0 ≤ (0 : Int) ∧ (0 : Int) < (69 : Byte).toNat ∧
      0 ≤ (0 : Int) ∧ 0 ≤ (0 : Int)) ∧
    ¬(0 ≤ (97 : Int) ∧ (97 : Int) < (97 : Byte).toNat) ∧ (0 < (0 + 1) * (0 + 1) ∧ 5 < (2 + 1) * (1 + 1)) ∧
    ViewportInv ready ∧ ViewportInv { ready with vpRot := 1, vpW := 69, vpH := 97 } :=
  ⟨by decide, by decide, by decide, inv_ready.viewport, fun h => absurd h (by decide), fun _ => ⟨rfl, rfl⟩⟩

/-- The clauses of a primitive, of raw bytes, of init(), and of the hold in READY and outside it; and a step
that takes a call up. -/
theorem witness_HostComputesCallFromViewport :
    (mover { ready with calls := [.fillScreen 0] } = .host ∧ ready.q = [] ∧ ready.port = [] ∧
      { ready with calls := [.fillScreen 0] }.calls = [.fillScreen 0] ∧
      (∀ bs, HostCall.fillScreen 0 ≠ .raw bs) ∧ HostCall.fillScreen 0 ≠ .init ∧
      HostCall.fillScreen 0 ≠ .awaitReady) ∧
    mover { ready with calls := [.raw [0xFF]] } = .host ∧ mover { State.reset with calls := [.init] } = .host ∧
    (mover { ready with calls := [.awaitReady] } = .host ∧ ready.ps = .ready) ∧
    (mover { State.reset with calls := [.awaitReady] } = .host ∧ State.reset.q = [] ∧
      State.reset.port = [] ∧ State.reset.ps ≠ .ready) ∧
    ∃ t, step { State.reset with calls := [.init] } = .next t ∧ t.calls ≠ [.init] :=
  ⟨⟨by decide, rfl, rfl, rfl, fun _ h => by simp at h, by decide, by decide⟩, by decide, by decide,
    by decide, by decide, _, rfl, by decide⟩

end Sys2Proof.Machine.Tests
end

section
/-! SUPPORT. What the operations and the steps leave unchanged, and which line writes a step emits. -/

namespace Sys2Proof.Machine

/-! ### The state that the mover acts on -/

@[simp] theorem afterTurnTaken_lines (s : State) : (afterTurnTaken s).lines = s.lines := rfl
@[simp] theorem afterTurnTaken_vpW (s : State) : (afterTurnTaken s).vpW = s.vpW := rfl
@[simp] theorem afterTurnTaken_vpH (s : State) : (afterTurnTaken s).vpH = s.vpH := rfl
@[simp] theorem afterTurnTaken_vpRot (s : State) : (afterTurnTaken s).vpRot = s.vpRot := rfl
@[simp] theorem afterTurnTaken_ps (s : State) : (afterTurnTaken s).ps = s.ps := rfl
@[simp] theorem afterTurnTaken_win (s : State) : (afterTurnTaken s).win = s.win := rfl
@[simp] theorem afterTurnTaken_q (s : State) : (afterTurnTaken s).q = s.q := rfl
@[simp] theorem afterTurnTaken_dly (s : State) : (afterTurnTaken s).dly = s.dly := rfl
@[simp] theorem afterTurnTaken_wact (s : State) : (afterTurnTaken s).wact = s.wact := rfl
@[simp] theorem afterTurnTaken_fIllreq (s : State) : (afterTurnTaken s).fIllreq = s.fIllreq := rfl
@[simp] theorem afterTurnTaken_fNotinit (s : State) : (afterTurnTaken s).fNotinit = s.fNotinit := rfl
@[simp] theorem afterTurnTaken_tp (s : State) : (afterTurnTaken s).tp = s.tp := rfl
@[simp] theorem afterTurnTaken_traceRev (s : State) : (afterTurnTaken s).traceRev = s.traceRev := rfl
@[simp] theorem afterTurnTaken_cfg (s : State) : (afterTurnTaken s).cfg = s.cfg := rfl
@[simp] theorem afterTurnTaken_port (s : State) : (afterTurnTaken s).port = s.port := rfl
@[simp] theorem afterTurnTaken_calls (s : State) : (afterTurnTaken s).calls = s.calls := rfl
@[simp] theorem afterTurnTaken_sched (s : State) : (afterTurnTaken s).sched = s.sched.tail := rfl

/-! ### Perform and Tick -/

/-- Perform writes the lines, the queue, the wait, `PS` and the trace, and nothing else. -/
@[simp] theorem perform_frame (s : State) :
    (perform s).vpRot = s.vpRot ∧ (perform s).vpW = s.vpW ∧ (perform s).vpH = s.vpH ∧
    (perform s).win = s.win ∧ (perform s).fIllreq = s.fIllreq ∧ (perform s).fNotinit = s.fNotinit ∧
    (perform s).tp = s.tp ∧ (perform s).cfg = s.cfg ∧ (perform s).port = s.port ∧
    (perform s).calls = s.calls ∧ (perform s).sched = s.sched := by
  rcases perform_cases s with ⟨e, -⟩ | ⟨l, b, ops, -, e⟩ | ⟨n, ops, -, -, e⟩ | ⟨n, ops, -, -, -, e⟩ |
    ⟨ops, -, e⟩ <;> simp [e]

/-- Tick writes the delay counter and the trace, and nothing else. -/
@[simp] theorem tick_frame (s : State) :
    (tick s).lines = s.lines ∧ (tick s).vpRot = s.vpRot ∧ (tick s).vpW = s.vpW ∧
    (tick s).vpH = s.vpH ∧ (tick s).ps = s.ps ∧ (tick s).win = s.win ∧ (tick s).q = s.q ∧
    (tick s).wact = s.wact ∧ (tick s).fIllreq = s.fIllreq ∧ (tick s).fNotinit = s.fNotinit ∧
    (tick s).tp = s.tp ∧ (tick s).cfg = s.cfg ∧ (tick s).port = s.port ∧
    (tick s).calls = s.calls ∧ (tick s).sched = s.sched := by
  rcases tick_cases s with ⟨e, -⟩ | ⟨-, -, e⟩ <;> simp [e]

/-- Perform emits no line write but that of the micro-op at the head of the queue (rule R104). -/
theorem perform_lineWrites (s : State) :
    ∃ es, (perform s).trace = s.trace ++ es ∧
      ∀ l b, .lineWrite l b ∈ es → s.q.head? = some (.setLine l b) := by
  rcases perform_cases s with ⟨e, -⟩ | ⟨l, b, ops, hq, e⟩ | ⟨n, ops, -, -, e⟩ | ⟨n, ops, -, -, -, e⟩ |
    ⟨ops, -, e⟩
  · exact ⟨[], by simp [e], by simp⟩
  · exact ⟨[.lineWrite l b], by simp [e, State.trace], by simp [hq]⟩
  · exact ⟨[.waitBegin n], by simp [e, State.trace], by simp⟩
  · exact ⟨[.waitEnd], by simp [e, State.trace], by simp⟩
  · exact ⟨[.initDone], by simp [e, State.trace], by simp⟩

/-- Tick emits no line write (rule R281). -/
theorem tick_trace (s : State) :
    ∃ es, (tick s).trace = s.trace ++ es ∧ ∀ l b, .lineWrite l b ∉ es := by
  rcases tick_cases s with ⟨e, -⟩ | ⟨-, -, e⟩
  · exact ⟨[], by simp [e], by simp⟩
  · exact ⟨[.tick], by simp [e, State.trace], by simp⟩

/-! ### Requests -/

section
variable {i : Instr} {s t : State} (hi : i.isRequest = true) (h : exec i s = .next t)
include hi h

/-- A request writes none of the configuration. -/
theorem exec_request_cfg : t.cfg = s.cfg := by
  rcases exec_request_cases hi h with ⟨-, rfl⟩ | ⟨-, -, -, rfl⟩ | ⟨-, -, ops, tp, -, -, rfl⟩
  · rfl
  · simp
  · rfl

/-- A request emits no line write in its accepting step: its frames are still to be performed. -/
theorem exec_request_trace : ∃ es, t.trace = s.trace ++ es ∧ ∀ l b, .lineWrite l b ∉ es := by
  rcases exec_request_cases hi h with ⟨-, rfl⟩ | ⟨-, -, -, rfl⟩ | ⟨-, -, ops, tp, -, -, rfl⟩
  · exact ⟨[], by simp, by simp⟩
  · exact ⟨[.accept (encode i), .fault .notinit], by simp [State.trace], by simp⟩
  · exact ⟨[.accept (encode i)], by simp [State.trace, accepted], by simp⟩

/-- A request keeps the viewport, but an accepted SETROT gives it the size of its rotation (rule R206). -/
theorem exec_request_viewport :
    (∃ r, i = .setrot r ∧ t.vpRot = rotationMod4 r ∧ t.vpW = (viewportOf t.vpRot).1 ∧
      t.vpH = (viewportOf t.vpRot).2) ∨
    (t.vpRot = s.vpRot ∧ t.vpW = s.vpW ∧ t.vpH = s.vpH) := by
  rcases exec_request_cases hi h with ⟨-, rfl⟩ | ⟨-, -, -, rfl⟩ | ⟨-, -, ops, tp, -, -, rfl⟩
  · exact .inr ⟨rfl, rfl, rfl⟩
  · exact .inr ⟨rfl, rfl, rfl⟩
  · cases i with
    | setrot r => exact .inl ⟨r, rfl, rfl, rfl, rfl⟩
    | _ => exact .inr ⟨rfl, rfl, rfl⟩

end

/-! ### Steps -/

/-- No step writes the configuration (rule R303). -/
theorem step_cfg {s t : State} (h : step s = .next t) : t.cfg = s.cfg := by
  rcases step_cases h with ⟨-, rfl⟩ | ⟨-, rfl⟩ | ⟨-, rfl⟩ | ⟨-, -, rfl⟩ | ⟨-, -, port, calls, rfl⟩ |
    ⟨-, -, b, port, rfl⟩ | ⟨-, -, i, rest, -, hi, he⟩
  case inr.inr.inr.inr.inr.inr => exact (exec_request_cfg hi he).trans (afterTurnTaken_cfg s)
  all_goals simp

/-- The only line write that a step can emit is the block's, for the micro-op at the head of the queue
(rule R104). -/
theorem step_lineWrites {s t : State} (h : step s = .next t) :
    ∃ es, t.trace = s.trace ++ es ∧
      ∀ l b, .lineWrite l b ∈ es → mover s = .block ∧ s.q.head? = some (.setLine l b) := by
  rcases step_cases h with ⟨-, rfl⟩ | ⟨-, rfl⟩ | ⟨hm, rfl⟩ | ⟨-, -, rfl⟩ | ⟨-, -, port, calls, rfl⟩ |
    ⟨-, -, b, port, rfl⟩ | ⟨-, -, i, rest, -, hi, he⟩
  · exact ⟨[.reset], by simp [State.trace], by simp⟩
  · obtain ⟨es, ht, hes⟩ := tick_trace (afterTurnTaken s)
    exact ⟨es, ht, fun l b hb => absurd hb (hes l b)⟩
  · obtain ⟨es, ht, hes⟩ := perform_lineWrites (afterTurnTaken s)
    exact ⟨es, ht, fun l b hb => ⟨hm, hes l b hb⟩⟩
  · exact ⟨[], by simp [State.trace], by simp⟩
  · exact ⟨[], by simp [State.trace], by simp⟩
  · exact ⟨[.accept [b], .fault .illreq], by simp [State.trace], by simp⟩
  · obtain ⟨es, ht, hes⟩ := exec_request_trace hi he
    exact ⟨es, ht, fun l b hb => absurd hb (hes l b)⟩

/-- The viewport at rotation 0, which Reset gives it (rules R24 and R301). -/
@[simp] theorem viewportOf_zero : viewportOf 0#2 = (97, 69) := by decide

/-- A step keeps the viewport, but Reset and an offered SETROT may write it, and what they write has the
size of the rotation (rules R25 and R26). -/
theorem step_viewport {s t : State} (h : step s = .next t) :
    ((mover s = .resetInput ∨ ∃ r, Offers s (.setrot r)) ∧
      t.vpW = (viewportOf t.vpRot).1 ∧ t.vpH = (viewportOf t.vpRot).2) ∨
    (t.vpRot = s.vpRot ∧ t.vpW = s.vpW ∧ t.vpH = s.vpH) := by
  rcases step_cases h with ⟨hm, rfl⟩ | ⟨-, rfl⟩ | ⟨-, rfl⟩ | ⟨-, -, rfl⟩ | ⟨-, -, port, calls, rfl⟩ |
    ⟨-, -, b, port, rfl⟩ | ⟨hm, hq, i, rest, hd, hi, he⟩
  case inl => exact .inl ⟨.inl hm, by simp⟩
  case inr.inr.inr.inr.inr.inr =>
    rcases exec_request_viewport hi he with ⟨r, rfl, -, hsize⟩ | hsame
    · exact .inl ⟨.inr ⟨r, hm, hq, rest, hd⟩, hsize⟩
    · exact .inr hsame
  all_goals exact .inr (by simp)

end Sys2Proof.Machine
end

section
/-! SUPPORT. The obligations of `10_state.md`: the reset values, the viewport, the absent reset line. -/

namespace Sys2Proof.Machine

/-! ### Reset values -/

@[simp] theorem resetWith_status (c : Config) : (State.resetWith c).status = 0 := by
  simp [State.status, State.busy, State.resetWith, ProtocolState.code, WindowPhase.code]

@[simp] theorem resetWith_trace (c : Config) : (State.resetWith c).trace = [.reset] := rfl

/-- Settles O1: each reset value is read off `State.resetWith`. -/
theorem powerOnState : Obligations.PowerOnState := by
  unfold Obligations.PowerOnState
  refine ⟨⟨Config.ofParams Params.tps, rfl⟩, fun c => ?_⟩
  exact ⟨rfl, rfl, rfl, rfl, rfl, rfl, rfl, rfl, rfl, rfl, rfl, resetWith_status c, resetWith_trace c, rfl⟩

/-! ### The viewport -/

/-- Rule R26 says that the viewport has the size that its rotation gives it. -/
theorem viewportInv_iff (s : State) :
    ViewportInv s ↔ s.vpW = (viewportOf s.vpRot).1 ∧ s.vpH = (viewportOf s.vpRot).2 := by
  unfold ViewportInv viewportOf
  cases s.vpRot.getLsbD 0 <;> simp [panelW, panelH]

/-- Rule R26 holds after reset. -/
theorem viewportInv_resetWith (c : Config) : ViewportInv (State.resetWith c) :=
  (viewportInv_iff _).mpr (by simp [State.resetWith, panelW, panelH])

/-- Every step keeps rule R26. -/
theorem step_viewportInv {s t : State} (hs : ViewportInv s) (h : step s = .next t) : ViewportInv t := by
  rcases step_viewport h with ⟨-, hsize⟩ | ⟨hr, hw, hh⟩
  · exact (viewportInv_iff t).mpr hsize
  · simpa only [ViewportInv, hr, hw, hh] using hs

/-- Settles O28: `step_viewport` names the writers, and the offsets are read from a configuration that no
step writes. -/
theorem onlySetrotWritesViewport : Obligations.OnlySetrotWritesViewport := by
  unfold Obligations.OnlySetrotWritesViewport
  intro s t h
  refine ⟨fun hchanged => ?_, by rw [State.vpColOff, step_cfg h], by rw [State.vpRowOff, step_cfg h]⟩
  rcases step_viewport h with ⟨hwriter, -⟩ | ⟨hr, hw, hh⟩
  · exact hwriter
  · simp [hr, hw, hh] at hchanged

/-- Settles O29, from reset and by `step_viewportInv`. -/
theorem viewportFollowsRotation : Obligations.ViewportFollowsRotation :=
  ⟨viewportInv_resetWith, fun _ _ => step_viewportInv⟩

/-! ### The absent reset line -/

/-- Without `HAS_RST` an observer reads no level on LCD_RST (rule R22). -/
theorem readLine_lcdRst_of_no_hasRst {s : State} (h : s.cfg.hasRst = false) :
    s.readLine .lcdRst = none := by
  simp [State.readLine, h]

/-- Settles O36: a step writes a line only for the micro-op at the head of the queue, and under the
invariant no micro-op of the queue writes LCD_RST. -/
theorem noResetLineWithoutHasRst : Obligations.NoResetLineWithoutHasRst := by
  unfold Obligations.NoResetLineWithoutHasRst
  intro s t hinv hrst h
  refine ⟨readLine_lcdRst_of_no_hasRst hrst, fun es b htrace hmem => ?_⟩
  obtain ⟨es', htrace', hwrites⟩ := step_lineWrites h
  obtain rfl : es = es' := List.append_cancel_left (htrace.symm.trans htrace')
  have hhead := (hwrites .lcdRst b hmem).2
  exact (hinv.noResetLine hrst).1 b (List.mem_of_head? hhead)

end Sys2Proof.Machine
end

section
/-! SUPPORT. The obligations of `30_encoding.md`: the lengths of what the decoders read, and the undefined
opcode. -/

namespace Sys2Proof

/-! ### Requests -/

/-- The colour that stands high byte first is sent high byte first (rule R79). -/
theorem encode_wrpix_append (h l : Byte) : encode (.wrpix (h ++ l)) = [0x03, h, l] := by
  have hhigh : (h ++ l).extractLsb' 8 8 = h := BitVec.extractLsb'_append_eq_left
  have hlow : (h ++ l).extractLsb' 0 8 = l := BitVec.extractLsb'_append_eq_right
  simp only [encode, hhigh, hlow]

/-- Every request's reading: the string begins with the request's own bytes. -/
theorem eq_encode_append_of_decodeRequest {bs rest : List Byte} {i : Instr}
    (h : decodeRequest bs = .ok (i, rest)) : bs = encode i ++ rest := by
  unfold decodeRequest at h
  repeat' split at h
  all_goals simp only [Except.ok.injEq, Prod.mk.injEq, reduceCtorEq] at h
  all_goals
    obtain ⟨rfl, rfl⟩ := h
    subst_vars
  · rfl
  · rfl
  · rw [encode_wrpix_append]
    rfl
  · rfl
  · rfl
  · rfl

/-- The first byte of a request gives the request's length (rules R78 and R84). -/
theorem length_encode_of_isRequest {i : Instr} (hi : i.isRequest = true) :
    ∃ op ops, encode i = op :: ops ∧ (encode i).length = requestLen op := by
  cases i with
  | wrcmd v => exact ⟨_, _, rfl, Laws.EncodeLength.wrcmd v rfl⟩
  | wrdata v => exact ⟨_, _, rfl, Laws.EncodeLength.wrdata v rfl⟩
  | wrpix c => exact ⟨_, _, rfl, Laws.EncodeLength.wrpix c rfl⟩
  | setwin x0 y0 x1 y1 => exact ⟨_, _, rfl, Laws.EncodeLength.setwin x0 y0 x1 y1 rfl⟩
  | setrot r => exact ⟨_, _, rfl, Laws.EncodeLength.setrot r rfl⟩
  | init => exact ⟨_, _, rfl, Laws.EncodeLength.init rfl⟩
  | initrec cmd args => simp [Instr.isRequest] at hi
  | initrecD cmd args d => simp [Instr.isRequest] at hi

/-- The reading of a request takes as many bytes as its first byte says (rule R84). -/
theorem length_of_decodeRequest {bs rest : List Byte} {i : Instr}
    (h : decodeRequest bs = .ok (i, rest)) :
    ∃ op, bs.head? = some op ∧ bs.length = requestLen op + rest.length := by
  obtain ⟨op, ops, hbytes, hlen⟩ :=
    length_encode_of_isRequest (Machine.isRequest_of_decodeRequest h)
  rw [eq_encode_append_of_decodeRequest h]
  exact ⟨op, by rw [hbytes]; rfl, by rw [List.length_append, hlen]⟩

/-! ### Records -/

/-- Rule R74's count is the low seven bits of the byte, read as a number. -/
theorem argcCount_eq_mod (argc : Byte) : argcCount argc = argc.toNat % 128 := by
  simpa [argcCount] using Nat.and_two_pow_sub_one_eq_mod argc.toNat 7

/-- Rule R74's flag is the top bit of the byte, read as a number. -/
theorem toNat_argcFlag (argc : Byte) : (argcFlag argc).toNat = argc.toNat / 128 := by
  have htop : argc.toNat / 128 < 2 := by omega
  rw [argcFlag, BitVec.getLsbD, Nat.toNat_testBit, Nat.mod_eq_of_lt htop]

/-- Rule R76's length, with the flag as a number. -/
theorem recLen_eq (argc : Byte) : recLen argc = 2 + argcCount argc + (argcFlag argc).toNat := by
  cases h : argcFlag argc <;> simp [recLen, h]

/-- The reading of a record takes as many bytes as the argument-count byte says (rules R76 and R84). -/
theorem length_of_decodeRecord {bs rest : List Byte} {r : Record}
    (h : decodeRecord bs = .ok (r, rest)) :
    ∃ argc, bs[1]? = some argc ∧ bs.length = recLen argc + rest.length := by
  obtain ⟨argc, rfl, hcount, hflag⟩ := decodeRecord_ok h
  refine ⟨argc, rfl, ?_⟩
  have hdelay : r.delay.toList.length = (argcFlag argc).toNat := by
    rw [← hflag]
    cases r.delay <;> rfl
  simp only [List.length_cons, List.length_append, recLen_eq, hcount, hdelay]
  omega

/-! ### Undefined opcodes -/

/-- A byte that rule R81 leaves undefined is none of the six opcodes. -/
theorem ne_opcode_of_undefined {op : Byte} (h : op.toNat = 0 ∨ 7 ≤ op.toNat) :
    op ≠ 0x01 ∧ op ≠ 0x02 ∧ op ≠ 0x03 ∧ op ≠ 0x04 ∧ op ≠ 0x05 ∧ op ≠ 0x06 := by
  refine ⟨?_, ?_, ?_, ?_, ?_, ?_⟩ <;> rintro rfl <;> simp at h

/-- An undefined opcode carries no operands (rule R81). -/
theorem requestLen_of_undefined {op : Byte} (h : op.toNat = 0 ∨ 7 ≤ op.toNat) : requestLen op = 1 := by
  obtain ⟨h1, h2, h3, h4, h5, -⟩ := ne_opcode_of_undefined h
  simp only [requestLen, h1, h2, h3, h4, h5, if_false]

/-- An undefined opcode is read as such, whatever follows it (rule R81). -/
theorem decodeRequest_of_undefined {op : Byte} (ops : List Byte) (h : op.toNat = 0 ∨ 7 ≤ op.toNat) :
    decodeRequest (op :: ops) = .error (.undefinedOpcode op) := by
  obtain ⟨h1, h2, h3, h4, h5, h6⟩ := ne_opcode_of_undefined h
  simp only [decodeRequest, h1, h2, h3, h4, h5, h6, if_false]

end Sys2Proof

namespace Sys2Proof.Machine

/-- Settles O53: the lengths of what the decoders read, and of an undefined opcode. -/
theorem lengthsFollowFirstBytes : Obligations.LengthsFollowFirstBytes := by
  unfold Obligations.LengthsFollowFirstBytes
  refine ⟨fun _ _ _ => length_of_decodeRequest, fun bs r rest h => ?_,
    fun _ => requestLen_of_undefined⟩
  obtain ⟨argc, hargc, hlen⟩ := length_of_decodeRecord h
  exact ⟨argc, hargc, hlen, by rw [recLen_eq, argcCount_eq_mod, toNat_argcFlag]⟩

/-- With the queue empty the host's step offers what stands at the port (rule R101). -/
theorem step_of_host_idle {s : State} (hm : mover s = .host) (hq : s.q = []) :
    step s = offerNext (afterTurnTaken s) := by
  have hidle : ¬ (afterTurnTaken s).busy = true := by simp [hq]
  rw [step_eq, hm]
  exact if_neg hidle

/-- With the queue empty an undefined opcode is accepted and raises ILLREQ (rule R271). -/
theorem rejectOpcode_of_idle (b : Byte) {s : State} (hq : s.q = []) :
    rejectOpcode b s = (s.emit (.accept [b])).raiseFault .illreq :=
  if_neg (by simp [hq])

/-- The offer of an undefined opcode takes that one byte off the port (rule R81). -/
theorem offerNext_of_undefined {s : State} {b : Byte} {rest : List Byte} (hp : s.port = b :: rest)
    (hb : b.toNat = 0 ∨ 7 ≤ b.toNat) : offerNext s = .next (rejectOpcode b { s with port := rest }) := by
  unfold offerNext
  rw [hp, decodeRequest_of_undefined rest hb]
  rfl

/-- Settles O23: the step is the offer of the byte, which the block drops. -/
theorem undefinedOpcodeRaisesIllreq : Obligations.UndefinedOpcodeRaisesIllreq := by
  unfold Obligations.UndefinedOpcodeRaisesIllreq
  intro s b rest hm hq hp hb
  have hstep : step s =
      .next (({ afterTurnTaken s with port := rest }.emit (.accept [b])).raiseFault .illreq) := by
    rw [step_of_host_idle hm hq, offerNext_of_undefined (s := afterTurnTaken s) hp hb]
    exact congrArg _ (rejectOpcode_of_idle b hq)
  exact ⟨_, hstep, by simp [State.trace], rfl⟩

end Sys2Proof.Machine
end

section
/-! SUPPORT. The obligations of `40_sequencer.md`: what the block performs, the waits, the order of the
pending micro-ops, and the addressing-window phase. -/

namespace Sys2Proof.Machine

/-! ### Turns -/

theorem turn_block (s : State) : turn .block s = .next (perform s) := rfl

theorem turn_host (s : State) : turn .host s = hostTurn s := rfl

theorem turn_tickSource (s : State) : turn .tickSource s = .next (tick s) := rfl

/-- The step of the reset input is Reset (rule R301). -/
theorem eq_blockReset_of_step {s t : State} (hm : mover s = .resetInput) (h : step s = .next t) :
    t = blockReset (afterTurnTaken s) := by
  rw [step_eq, hm] at h
  exact (Host.Outcome.next.inj h).symm

/-- While `BUSY = 1` the host's turn passes (rule R101). -/
theorem hostTurn_of_busy {s : State} (hq : s.q ≠ []) : hostTurn s = .next s := by
  simp [hostTurn, hq]

/-! ### Perform, one equation per micro-op -/

section
variable {s : State} {n : WaitMs} {ops : List MicroOp}

theorem perform_of_setLine {l : Line} {b : Bool} (hq : s.q = .setLine l b :: ops) :
    perform s = { s with lines := s.lines.set l b, q := ops }.emit (.lineWrite l b) := by
  simp only [perform, hq]

theorem perform_of_wait_not_begun (hq : s.q = .wait n :: ops) (hw : s.wact = false) :
    perform s = { s with dly := BitVec.ofNat 16 n.val, wact := true }.emit (.waitBegin n) := by
  simp only [perform, hq, hw, Bool.false_eq_true, if_false]

theorem perform_of_wait_counted (hq : s.q = .wait n :: ops) (hw : s.wact = true) (hd : s.dly = 0) :
    perform s = { s with q := ops, wact := false }.emit .waitEnd := by
  simp only [perform, hq, hw, hd, if_true]

theorem perform_of_wait_held (hq : s.q = .wait n :: ops) (hw : s.wact = true) (hd : s.dly ≠ 0) :
    perform s = s := by
  simp only [perform, hq, hw, hd, if_true, if_false]

theorem perform_of_endInit (hq : s.q = .endInit :: ops) :
    perform s = { s with q := ops, ps := .ready }.emit .initDone := by
  simp only [perform, hq]

end

/-- The delay counter holds every length of a wait (rules R31 and R103). -/
theorem toNat_ofNat_waitMs (n : WaitMs) : (BitVec.ofNat 16 n.val).toNat = n.val := by
  have hn := n.isLt
  rw [BitVec.toNat_ofNat, Nat.mod_eq_of_lt (by omega)]

/-! ### Tick within a wait -/

theorem toNat_pos_of_ne_zero {d : BitVec 16} (h : d ≠ 0) : 0 < d.toNat := by
  bv_omega

/-- A counted tick leaves one tick less (rule R281). -/
theorem tick_dly_toNat {s : State} (hw : s.wact = true) (hd : s.dly ≠ 0) :
    (tick s).dly.toNat = s.dly.toNat - 1 := by
  rcases tick_cases s with ⟨-, hnot⟩ | ⟨-, -, e⟩
  · exact absurd ⟨hw, hd⟩ hnot
  · rw [e]
    bv_omega

/-! ### Single turns of the block -/

/-- Settles O3: `perform_of_setLine` is the next state. -/
theorem performWritesLine : Obligations.PerformWritesLine := by
  unfold Obligations.PerformWritesLine
  intro s l b ops hq
  have hperform := perform_of_setLine hq
  refine ⟨_, (turn_block s).trans (congrArg _ hperform), ?_, fun m hm => ?_, State.trace_emit _ _, rfl⟩
  · exact Lines.get_set_self s.lines l b
  · exact Lines.get_set_of_ne s.lines b hm

/-- Settles O4: the two equations of a wait that is not held. -/
theorem performBeginsAndEndsWait : Obligations.PerformBeginsAndEndsWait := by
  unfold Obligations.PerformBeginsAndEndsWait
  intro s n ops hq
  constructor
  · intro hw
    have hperform := perform_of_wait_not_begun hq hw
    exact ⟨_, (turn_block s).trans (congrArg _ hperform), toNat_ofNat_waitMs n, State.trace_emit _ _, rfl⟩
  · intro hw hd
    have hperform := perform_of_wait_counted hq hw hd
    exact ⟨_, (turn_block s).trans (congrArg _ hperform), State.trace_emit _ _, rfl⟩

/-- Settles O6: `perform_of_endInit` is the next state. -/
theorem performEndsInit : Obligations.PerformEndsInit := by
  unfold Obligations.PerformEndsInit
  intro s ops hq
  have hperform := perform_of_endInit hq
  exact ⟨_, (turn_block s).trans (congrArg _ hperform), rfl, State.trace_emit _ _, rfl⟩

/-! ### What the invariant says of a wait -/

/-- The invariant says nothing of the schedule. -/
theorem MachineInv.afterTurnTaken {s : State} (h : MachineInv s) :
    MachineInv (Machine.afterTurnTaken s) := { h with }

/-- A wait has begun only while one is at the head of the queue (rule R31). -/
theorem MachineInv.wact_eq_false {s : State} (h : MachineInv s)
    (hq : ∀ n ops, s.q ≠ .wait n :: ops) : s.wact = false := by
  cases hw : s.wact with
  | false => rfl
  | true =>
    obtain ⟨n, ops, hhead, -⟩ := h.waiting hw
    exact absurd hhead (hq n ops)

theorem MachineInv.wact_eq_false_of_idle {s : State} (h : MachineInv s) (hq : s.q = []) :
    s.wact = false :=
  h.wact_eq_false (by simp [hq])

/-! ### The counting of waits -/

/-- What the monitor of the waits shows when the trace agrees with `DLY` and `WACT`. -/
def State.waitPhase (s : State) : WaitMonitor := if s.wact then .waiting s.dly.toNat else .idle

theorem waitPhase_of_not_begun {s : State} (hw : s.wact = false) : s.waitPhase = .idle := by
  simp [State.waitPhase, hw]

theorem waitPhase_of_begun {s : State} (hw : s.wact = true) :
    s.waitPhase = .waiting s.dly.toNat := by
  simp [State.waitPhase, hw]

theorem waitsCounted_iff (s : State) : WaitsCounted s ↔ waitMonitor s.trace = s.waitPhase := Iff.rfl

/-- The agreement is kept when the appended events lead the monitor to the next state's phase. -/
theorem WaitsCounted.append {s t : State} {es : List Event} (hs : WaitsCounted s)
    (htrace : t.trace = s.trace ++ es) (hphase : es.foldl WaitMonitor.next s.waitPhase = t.waitPhase) :
    WaitsCounted t := by
  rw [waitsCounted_iff] at hs ⊢
  rw [htrace, ← hphase, ← hs]
  exact List.foldl_append

/-- Events that neither begin, count nor end a wait keep the agreement outside waits. -/
theorem WaitsCounted.append_outside {s t : State} {es : List Event} (hs : WaitsCounted s)
    (hw : s.wact = false) (hw' : t.wact = false) (htrace : t.trace = s.trace ++ es)
    (hes : es.foldl WaitMonitor.next .idle = .idle) : WaitsCounted t :=
  hs.append htrace (by rw [waitPhase_of_not_begun hw, waitPhase_of_not_begun hw', hes])

/-- Reset ends every wait (rule R301). -/
theorem blockReset_waitsCounted {s : State} (hs : WaitsCounted s) : WaitsCounted (blockReset s) := by
  refine hs.append (es := [.reset]) (by simp [State.trace]) ?_
  rw [waitPhase_of_not_begun (blockReset_wact s)]
  cases hw : s.wact with
  | false => rw [waitPhase_of_not_begun hw]; rfl
  | true => rw [waitPhase_of_begun hw]; rfl

/-- A tick is counted within a wait that has ticks left, and is no event otherwise (rule R281). -/
theorem tick_waitsCounted {s : State} (hs : WaitsCounted s) : WaitsCounted (tick s) := by
  rcases tick_cases s with ⟨e, -⟩ | ⟨hw, hd, e⟩
  · rwa [e]
  · refine hs.append (es := [.tick]) (by simp [e, State.trace]) ?_
    have hw' : (tick s).wact = true := by simp [hw]
    have hleft : s.dly.toNat ≠ 0 := (toNat_pos_of_ne_zero hd).ne'
    rw [waitPhase_of_begun hw, waitPhase_of_begun hw', tick_dly_toNat hw hd]
    exact if_neg hleft

/-- The block opens a wait with all its ticks left, ends it with none left, and does nothing else within
one (rules R105 to R107). -/
theorem perform_waitsCounted {s : State} (hinv : MachineInv s) (hs : WaitsCounted s) :
    WaitsCounted (perform s) := by
  rcases perform_cases s with ⟨e, -⟩ | ⟨l, b, ops, hq, e⟩ | ⟨n, ops, hq, hw, e⟩ |
    ⟨n, ops, hq, hw, hd, e⟩ | ⟨ops, hq, e⟩
  · rwa [e]
  · have hw : s.wact = false := hinv.wact_eq_false (by simp [hq])
    rw [e]
    exact hs.append_outside (es := [.lineWrite l b]) hw hw (by simp [State.trace]) rfl
  · rw [e]
    refine hs.append (es := [.waitBegin n]) (by simp [State.trace]) ?_
    rw [waitPhase_of_not_begun hw, waitPhase_of_begun rfl, toNat_ofNat_waitMs]
    rfl
  · rw [e]
    refine hs.append (es := [.waitEnd]) (by simp [State.trace]) ?_
    rw [waitPhase_of_begun hw, hd, waitPhase_of_not_begun rfl]
    rfl
  · have hw : s.wact = false := hinv.wact_eq_false (by simp [hq])
    rw [e]
    exact hs.append_outside (es := [.initDone]) hw hw (by simp [State.trace]) rfl

/-- A request is accepted outside waits, and its acceptance neither begins nor ends one (rule R101). -/
theorem exec_request_waitsCounted {i : Instr} {s t : State} (hi : i.isRequest = true)
    (h : exec i s = .next t) (hw : s.wact = false) (hs : WaitsCounted s) : WaitsCounted t := by
  rcases exec_request_cases hi h with ⟨-, rfl⟩ | ⟨-, -, -, rfl⟩ | ⟨-, -, ops, tp, -, -, rfl⟩
  · exact hs
  · exact hs.append_outside (es := [.accept (encode i), .fault .notinit]) hw hw (by simp [State.trace]) rfl
  · exact hs.append_outside (es := [.accept (encode i)]) hw hw (by simp [State.trace, accepted]) rfl

/-- Every step keeps the agreement of the trace's waits with `DLY` and `WACT` (rule R107). -/
theorem step_waitsCounted {s t : State} (hinv : MachineInv s) (hs : WaitsCounted s)
    (h : step s = .next t) : WaitsCounted t := by
  have hs' : WaitsCounted (afterTurnTaken s) := hs
  rcases step_cases h with ⟨-, rfl⟩ | ⟨-, rfl⟩ | ⟨-, rfl⟩ | ⟨-, -, rfl⟩ | ⟨-, -, port, calls, rfl⟩ |
    ⟨-, hq, b, port, rfl⟩ | ⟨-, hq, i, rest, -, hi, he⟩
  · exact blockReset_waitsCounted hs'
  · exact tick_waitsCounted hs'
  · exact perform_waitsCounted hinv.afterTurnTaken hs'
  · exact hs
  · exact hs
  · have hw : s.wact = false := hinv.wact_eq_false_of_idle hq
    exact hs.append_outside (es := [.accept [b], .fault .illreq]) hw hw (by simp [State.trace]) rfl
  · exact exec_request_waitsCounted hi he (hinv.wact_eq_false_of_idle hq) hs

/-- Settles O5: a held wait by the equations of Perform and of the host's turn, and the count by
`step_waitsCounted`. -/
theorem waitsHoldForTheirTicks : Obligations.WaitsHoldForTheirTicks := by
  unfold Obligations.WaitsHoldForTheirTicks
  refine ⟨fun s n ops hq hw hd => ?_, fun s t => step_waitsCounted⟩
  have hblock : perform s = s := perform_of_wait_held hq hw hd
  have hhost : hostTurn s = .next s := hostTurn_of_busy (by simp [hq])
  refine ⟨(turn_block s).trans (congrArg _ hblock), (turn_host s).trans hhost,
    tick s, turn_tickSource s, by simp, by simp [hw], ?_⟩
  have hpos := toNat_pos_of_ne_zero hd
  rw [tick_dly_toNat hw hd]
  omega

/-! ### The order of the pending micro-ops -/

theorem eventsToCome_of_not_begun {s : State} (hw : s.wact = false) :
    eventsToCome s = runEvents s.q := by
  simp [eventsToCome, hw]

theorem eventsToCome_of_begun {s : State} {n : WaitMs} {ops : List MicroOp} (hq : s.q = .wait n :: ops)
    (hw : s.wact = true) : eventsToCome s = waitTail s.dly.toNat ++ runEvents ops := by
  simp [eventsToCome, hq, hw]

/-- The list of rule R110 stays the same when the appended events are the first of those to come. -/
theorem trace_append_eventsToCome {s t : State} {es : List Event} (htrace : t.trace = s.trace ++ es)
    (hcome : eventsToCome s = es ++ eventsToCome t) :
    t.trace ++ eventsToCome t = s.trace ++ eventsToCome s := by
  rw [htrace, hcome, List.append_assoc]

/-- The first of the ticks that a wait has left. -/
theorem waitTail_of_pos {k : Nat} (hk : 0 < k) : waitTail k = .tick :: waitTail (k - 1) := by
  obtain ⟨j, rfl⟩ := Nat.exists_eq_add_one.mpr hk
  simp [waitTail, List.replicate_succ]

/-- A counted tick is the next of the events to come (rule R107). -/
theorem tick_trace_eventsToCome {s : State} (hinv : MachineInv s) :
    (tick s).trace ++ eventsToCome (tick s) = s.trace ++ eventsToCome s := by
  rcases tick_cases s with ⟨e, -⟩ | ⟨hw, hd, e⟩
  · rw [e]
  · obtain ⟨n, ops, hq, -⟩ := hinv.waiting hw
    have hq' : (tick s).q = .wait n :: ops := by simp [hq]
    have hw' : (tick s).wact = true := by simp [hw]
    refine trace_append_eventsToCome (es := [.tick]) (by simp [e, State.trace]) ?_
    rw [eventsToCome_of_begun hq hw, eventsToCome_of_begun hq' hw', tick_dly_toNat hw hd,
      waitTail_of_pos (toNat_pos_of_ne_zero hd)]
    rfl

/-- What the block performs is the next of the events to come (rule R110). -/
theorem perform_trace_eventsToCome {s : State} (hinv : MachineInv s) :
    (perform s).trace ++ eventsToCome (perform s) = s.trace ++ eventsToCome s := by
  rcases perform_cases s with ⟨e, -⟩ | ⟨l, b, ops, hq, e⟩ | ⟨n, ops, hq, hw, e⟩ |
    ⟨n, ops, hq, hw, hd, e⟩ | ⟨ops, hq, e⟩
  · rw [e]
  · have hw : s.wact = false := hinv.wact_eq_false (by simp [hq])
    rw [e]
    refine trace_append_eventsToCome (es := [.lineWrite l b]) (by simp [State.trace]) ?_
    simp [eventsToCome_of_not_begun, hw, hq, runEvents_cons, opEvents]
  · have hq' : (perform s).q = .wait n :: ops := by rw [e, hq]
    have hw' : (perform s).wact = true := by rw [e]
    have hdly : (perform s).dly.toNat = n.val := by rw [e, toNat_ofNat_waitMs]
    refine trace_append_eventsToCome (es := [.waitBegin n]) (by simp [e, State.trace]) ?_
    rw [eventsToCome_of_not_begun hw, hq, runEvents_cons, eventsToCome_of_begun hq' hw', hdly]
    rfl
  · rw [e]
    refine trace_append_eventsToCome (es := [.waitEnd]) (by simp [State.trace]) ?_
    rw [eventsToCome_of_begun hq hw, hd, eventsToCome_of_not_begun rfl]
    rfl
  · have hw : s.wact = false := hinv.wact_eq_false (by simp [hq])
    rw [e]
    refine trace_append_eventsToCome (es := [.initDone]) (by simp [State.trace]) ?_
    simp [eventsToCome_of_not_begun, hw, hq, runEvents_cons, opEvents]

/-- Settles O9: the block and the tick source perform the next of the events to come, and the host is
held. -/
theorem pendingMicroOpsRunInOrder : Obligations.PendingMicroOpsRunInOrder := by
  unfold Obligations.PendingMicroOpsRunInOrder
  constructor
  · intro s t hinv hbusy hm h
    rcases step_cases h with ⟨hreset, -⟩ | ⟨-, rfl⟩ | ⟨-, rfl⟩ | ⟨-, -, rfl⟩ | ⟨-, hq, -⟩ |
      ⟨-, hq, -⟩ | ⟨-, hq, -⟩
    · exact absurd hreset hm
    · exact tick_trace_eventsToCome hinv.afterTurnTaken
    · exact perform_trace_eventsToCome hinv.afterTurnTaken
    · rfl
    all_goals exact absurd hq hbusy
  · intro s t hm h
    rw [eq_blockReset_of_step hm h, blockReset_q]

/-! ### The addressing-window phase -/

/-- What an acceptance leaves in the queue depends on `Q` and `PS` only, when the expansion does not depend
on the state. -/
theorem acceptRequest_q_congr {i : Instr} {effect : State → State} {s s' : State}
    (hq : s'.q = s.q) (hp : s'.ps = s.ps) (heffect : ∀ a b, (effect a).q = (effect b).q) :
    (acceptRequest i effect s').q = (acceptRequest i effect s).q := by
  rcases acceptRequest_cases i effect s with ⟨hbusy, e⟩ | ⟨hidle, huninit, e⟩ | ⟨hidle, hready, e⟩
  · rw [e, acceptRequest_of_busy (by rwa [hq]), hq]
  · rw [e, acceptRequest_of_uninit (hq.trans hidle) (hp.trans huninit)]
    exact hq
  · rw [e, acceptRequest_of_idle (hq.trans hidle) (by rwa [hp])]
    exact heffect _ _

/-- The frames of a data request do not depend on `WIN` (rule R113). -/
theorem data_frames_independent_of_win {i : Instr} (s : State) (w : WindowPhase)
    (hi : (∃ v, i = .wrdata v) ∨ ∃ c, i = .wrpix c) :
    ∃ t u, exec i s = .next t ∧ exec i { s with win := w } = .next u ∧ u.q = t.q := by
  rcases hi with ⟨v, rfl⟩ | ⟨c, rfl⟩
  · exact ⟨_, _, rfl, rfl, acceptRequest_q_congr rfl rfl fun _ _ => rfl⟩
  · exact ⟨_, _, rfl, rfl, acceptRequest_q_congr rfl rfl fun _ _ => rfl⟩

@[simp] theorem afterData_closed : WindowPhase.closed.afterData = .closed := rfl

theorem afterData_of_ne_closed {w : WindowPhase} (h : w ≠ .closed) : w.afterData = .streaming := by
  cases w with
  | closed => exact absurd rfl h
  | opened => rfl
  | streaming => rfl

/-- An accepted request writes `WIN` as the table of rule R113 says; a held or faulted one keeps it. -/
theorem exec_request_win {i : Instr} {s t : State} (hi : i.isRequest = true) (h : exec i s = .next t) :
    (s.q = [] ∧ (s.ps ≠ .uninit ∨ i = .init) ∧ t.win = winAfter i s.win) ∨
    ((s.q ≠ [] ∨ s.ps = .uninit ∧ i ≠ .init) ∧ t.win = s.win) := by
  rcases exec_request_cases hi h with ⟨hq, rfl⟩ | ⟨-, hp, hn, rfl⟩ | ⟨hq, hacc, ops, tp, -, -, rfl⟩
  · exact .inr ⟨.inl hq, rfl⟩
  · exact .inr ⟨.inr ⟨hp, hn⟩, rfl⟩
  · exact .inl ⟨hq, hacc, rfl⟩

/-- The step of an offered request runs it, its bytes taken off the port (rule R101). -/
theorem step_of_offers {s : State} {i : Instr} (ho : Offers s i) :
    i.isRequest = true ∧ ∃ rest, decodeRequest s.port = .ok (i, rest) ∧
      step s = exec i { afterTurnTaken s with port := rest } := by
  obtain ⟨hm, hq, rest, hd⟩ := ho
  refine ⟨isRequest_of_decodeRequest hd, rest, hd, ?_⟩
  rw [step_of_host_idle hm hq]
  simp only [offerNext, afterTurnTaken_port, hd]

/-- The step that accepts a request writes `WIN` (rule R113). -/
theorem step_win_of_accepted {s t : State} {i : Instr} (ho : Offers s i)
    (hacc : s.ps ≠ .uninit ∨ i = .init) (h : step s = .next t) : t.win = winAfter i s.win := by
  obtain ⟨hi, rest, -, hstep⟩ := step_of_offers ho
  obtain ⟨-, hidle, -⟩ := ho
  rcases exec_request_win hi (hstep.symm.trans h) with ⟨-, -, hwin⟩ | ⟨hq | ⟨hp, hn⟩, -⟩
  · exact hwin
  · exact absurd hidle hq
  · exact absurd hacc (not_or.mpr ⟨not_not.mpr hp, hn⟩)

/-- No step but Reset and an acceptance writes `WIN` (rule R113). -/
theorem step_win_writers {s t : State} (h : step s = .next t) :
    t.win = s.win ∨ mover s = .resetInput ∨ ∃ i, Offers s i ∧ (s.ps ≠ .uninit ∨ i = .init) := by
  rcases step_cases h with ⟨hm, -⟩ | ⟨-, rfl⟩ | ⟨-, rfl⟩ | ⟨-, -, rfl⟩ | ⟨-, -, port, calls, rfl⟩ |
    ⟨-, -, b, port, rfl⟩ | ⟨hm, hq, i, rest, hd, hi, he⟩
  case inl => exact .inr (.inl hm)
  case inr.inr.inr.inr.inr.inr =>
    rcases exec_request_win hi he with ⟨-, hacc, -⟩ | ⟨-, hsame⟩
    · exact .inr (.inr ⟨i, ⟨hm, hq, rest, hd⟩, hacc⟩)
    · exact .inl hsame
  all_goals exact .inl (by simp)

/-- Settles O32: `winAfter` is the table, and `step_win_writers` names the writers. -/
theorem windowPhaseTransitions : Obligations.WindowPhaseTransitions := by
  unfold Obligations.WindowPhaseTransitions
  refine ⟨fun s w i => data_frames_independent_of_win s w, fun s t h =>
    ⟨fun hm => ?_, fun i ho hacc => ?_, (step_win_writers h).resolve_left⟩⟩
  · rw [eq_blockReset_of_step hm h, blockReset_win]
  · rw [step_win_of_accepted ho hacc h]
    refine ⟨?_, ?_, ?_⟩
    · rintro ⟨x0, y0, x1, y1, rfl⟩
      rfl
    · intro hdata
      have htable : winAfter i s.win = s.win.afterData := by rcases hdata with ⟨c, rfl⟩ | ⟨v, rfl⟩ <;> rfl
      rw [htable]
      exact ⟨fun hclosed => by rw [hclosed, afterData_closed], afterData_of_ne_closed⟩
    · rintro (⟨v, rfl⟩ | ⟨r, rfl⟩ | rfl) <;> rfl

end Sys2Proof.Machine
end

section
/-! SUPPORT. The obligations of `41_frame.md`: the shape of a frame, what a receiver on either edge makes of
an expansion, and the requests that send frames alone. -/

namespace Sys2Proof.Machine

/-! ### The shape of a frame -/

/-- The nine bits that a frame clocks: the discriminator, then the byte, most significant bit first. -/
def frameBits (dc : Bool) (v : Byte) : List Bool :=
  dc :: [7, 6, 5, 4, 3, 2, 1, 0].map v.getLsbD

/-- A frame is its nine bits, each sent alike, between the two writes of CS_N (rules R131 and R133). -/
theorem frame_eq_frameBits (dc : Bool) (v : Byte) :
    frame dc v =
      .setLine .csN false :: ((frameBits dc v).flatMap sendBit ++ [.setLine .csN true]) := rfl

@[simp] theorem length_frameBits (dc : Bool) (v : Byte) : (frameBits dc v).length = 9 := rfl

@[simp] theorem length_frame (dc : Bool) (v : Byte) : (frame dc v).length = 29 := rfl

/-- Sending bits does not write CS_N. -/
theorem count_csN_sendBits (b : Bool) (bs : List Bool) :
    (bs.flatMap sendBit).count (.setLine .csN b) = 0 := by
  induction bs with
  | nil => rfl
  | cons x bs ih => simpa [sendBit, pulse] using ih

/-- Each bit is one pulse: SCL goes high once and low once (rule R130). -/
theorem count_scl_sendBits (b : Bool) (bs : List Bool) :
    (bs.flatMap sendBit).count (.setLine .scl b) = bs.length := by
  induction bs with
  | nil => rfl
  | cons x bs ih => cases b <;> simpa [sendBit, pulse] using ih

/-- Each bit is one write of SDA (rule R131). -/
theorem count_sda_sendBits (bs : List Bool) :
    (bs.flatMap sendBit).count (.setLine .sda false) + (bs.flatMap sendBit).count (.setLine .sda true) =
      bs.length := by
  induction bs with
  | nil => rfl
  | cons x bs ih => cases x <;> simp [sendBit, pulse] <;> omega

theorem count_csN_frame (dc : Bool) (v : Byte) (b : Bool) :
    (frame dc v).count (.setLine .csN b) = 1 := by
  cases b <;> simp [frame_eq_frameBits, count_csN_sendBits]

theorem count_scl_frame (dc : Bool) (v : Byte) (b : Bool) :
    (frame dc v).count (.setLine .scl b) = 9 := by
  simp [frame_eq_frameBits, count_scl_sendBits]

theorem count_sda_frame (dc : Bool) (v : Byte) :
    (frame dc v).count (.setLine .sda false) + (frame dc v).count (.setLine .sda true) = 9 := by
  simpa [frame_eq_frameBits] using count_sda_sendBits (frameBits dc v)

/-- Entries 4 to 27 of a frame are the byte's bits, three writes each (rule R134). -/
theorem getElem?_frame_of_bit (dc : Bool) (v : Byte) {j : Nat} (hj : j < 8) :
    (frame dc v)[4 + 3 * j]? = some (.setLine .sda (v.getLsbD (7 - j))) ∧
    (frame dc v)[5 + 3 * j]? = some (.setLine .scl true) ∧
    (frame dc v)[6 + 3 * j]? = some (.setLine .scl false) := by
  interval_cases j <;> exact ⟨rfl, rfl, rfl⟩

/-- Where the sending of bits raises SCL, the next write lowers it; when SCL was low at the start it is low
before, and CS_N is as at the start. -/
theorem sclHigh_in_sendBits {bs : List Bool} {ops : List MicroOp} {k : Nat} {l : Lines}
    (hops : bs.flatMap sendBit ++ [.setLine .csN true] = ops) (hscl : l.scl = false)
    (hk : ops[k]? = some (.setLine .scl true)) :
    ops[k + 1]? = some (.setLine .scl false) ∧
    (linesAfter (ops.take k) l).scl = false ∧ (linesAfter (ops.take k) l).csN = l.csN := by
  subst hops
  induction bs generalizing k l with
  | nil => cases k <;> simp at hk
  | cons b bs ih =>
    match k with
    | 0 => simp [sendBit] at hk
    | 1 => exact ⟨rfl, hscl, rfl⟩
    | 2 => simp [sendBit, pulse] at hk
    | k + 3 => exact ih (l := ((l.set .sda b).set .scl true).set .scl false) rfl hk

/-- The same of a frame, in which CS_N is low between its first write and its last. -/
theorem sclHigh_in_frame {dc : Bool} {v : Byte} {k : Nat} {l : Lines} (hscl : l.scl = false)
    (hk : (frame dc v)[k]? = some (.setLine .scl true)) :
    (frame dc v)[k + 1]? = some (.setLine .scl false) ∧
    (linesAfter ((frame dc v).take k) l).scl = false ∧
    (linesAfter ((frame dc v).take k) l).csN = false := by
  cases k with
  | zero => simp [frame] at hk
  | succ k =>
    exact sclHigh_in_sendBits (bs := frameBits dc v) (ops := (frame dc v).tail) (l := l.set .csN false)
      rfl hscl hk

/-- Settles O40: the counts and the entries of a frame, and `sclHigh_in_frame` for the rising edges. -/
theorem frameIsTwentyNineWrites : Obligations.FrameIsTwentyNineWrites := by
  unfold Obligations.FrameIsTwentyNineWrites
  intro dc v
  exact ⟨length_frame dc v, count_csN_frame dc v false, count_csN_frame dc v true,
    count_scl_frame dc v true, count_scl_frame dc v false, count_sda_frame dc v,
    rfl, rfl, rfl, rfl, fun _ => getElem?_frame_of_bit dc v, rfl,
    fun _ _ hscl hk => (sclHigh_in_frame hscl hk).2⟩

/-! ### What a receiver makes of frames -/

/-- A receiver at rest: no partial frame, chip-select released, the clock low. -/
structure Receiver.AtRest (r : Receiver) : Prop where
  buf : r.buf = []
  csN : r.lines.csN = true
  scl : r.lines.scl = false

theorem Receiver.atRest_start : Receiver.start.AtRest := ⟨rfl, rfl, rfl⟩

/-- The receiver after the events of performing `ops`. -/
def Receiver.watch (e : Edge) (r : Receiver) (ops : List MicroOp) : Receiver :=
  (runEvents ops).foldl (Receiver.observe e) r

theorem receive_runEvents (e : Edge) (ops : List MicroOp) :
    receive e (runEvents ops) = Receiver.start.watch e ops := rfl

@[simp] theorem Receiver.watch_nil (e : Edge) (r : Receiver) : r.watch e [] = r := rfl

theorem Receiver.watch_append (e : Edge) (r : Receiver) (a b : List MicroOp) :
    r.watch e (a ++ b) = (r.watch e a).watch e b := by
  simp [Receiver.watch, runEvents_append]

section
variable {r : Receiver} (hr : r.AtRest) (e : Edge)
include hr

/-- From rest a frame is recovered on either edge (`observe_frame`). -/
theorem Receiver.AtRest.watch_frame (dc : Bool) (v : Byte) :
    r.watch e (frame dc v) =
      { lines := { r.lines with csN := true, scl := false, sda := v.getLsbD 0 }
        buf := []
        frames := r.frames ++ [{ dc := dc, v := v }] } :=
  observe_frame e dc v r hr.buf hr.csN hr.scl

/-- From rest the frames sent one after the other are recovered in order (rule R143). -/
theorem Receiver.AtRest.watch_frames (fs : List BusFrame) :
    (r.watch e (fs.flatMap fun f => frame f.dc f.v)).frames = r.frames ++ fs := by
  induction fs generalizing r with
  | nil => simp
  | cons f fs ih =>
    rw [List.flatMap_cons, Receiver.watch_append, hr.watch_frame, ih ⟨rfl, rfl, rfl⟩]
    simp

end

/-- The reference receiver recovers the frames that are sent one after the other. -/
theorem recoveredFrames_frames (fs : List BusFrame) :
    recoveredFrames (runEvents (fs.flatMap fun f => frame f.dc f.v)) = fs :=
  Receiver.atRest_start.watch_frames .rising fs

theorem recoveredFrames_frame (dc : Bool) (v : Byte) :
    recoveredFrames (runEvents (frame dc v)) = [{ dc := dc, v := v }] := by
  simpa using recoveredFrames_frames [{ dc := dc, v := v }]

/-! ### The two sampling edges -/

/-- The micro-ops bring a receiver from rest to rest, and to the same state on either edge of SCL. -/
def EdgeFree (ops : List MicroOp) : Prop :=
  ∀ r : Receiver, r.AtRest → r.watch .falling ops = r.watch .rising ops ∧ (r.watch .rising ops).AtRest

theorem edgeFree_nil : EdgeFree [] := fun _ hr => ⟨rfl, hr⟩

theorem EdgeFree.append {a b : List MicroOp} (ha : EdgeFree a) (hb : EdgeFree b) :
    EdgeFree (a ++ b) := by
  intro r hr
  obtain ⟨hsame, hrest⟩ := ha r hr
  simpa only [Receiver.watch_append, hsame] using hb _ hrest

theorem EdgeFree.cons {op : MicroOp} {ops : List MicroOp} (hop : EdgeFree [op]) (hops : EdgeFree ops) :
    EdgeFree (op :: ops) :=
  EdgeFree.append (a := [op]) hop hops

theorem edgeFree_flatMap {α : Type} {f : α → List MicroOp} (hf : ∀ a, EdgeFree (f a)) (as : List α) :
    EdgeFree (as.flatMap f) := by
  induction as with
  | nil => exact edgeFree_nil
  | cons a as ih =>
    rw [List.flatMap_cons]
    exact (hf a).append ih

/-- Within a frame SDA is steady while SCL is high, so both edges sample the same bits (rule R142). -/
theorem edgeFree_frame (dc : Bool) (v : Byte) : EdgeFree (frame dc v) := by
  intro r hr
  rw [hr.watch_frame, hr.watch_frame]
  exact ⟨rfl, rfl, rfl, rfl⟩

theorem edgeFree_frames (fs : List BusFrame) : EdgeFree (fs.flatMap fun f => frame f.dc f.v) :=
  edgeFree_flatMap (fun f : BusFrame => edgeFree_frame f.dc f.v) fs

theorem edgeFree_wait (n : WaitMs) : EdgeFree [.wait n] := by
  intro r hr
  have hwatch (e : Edge) : r.watch e [.wait n] = r := by
    simpa [Receiver.watch, runEvents, opEvents, Receiver.observe] using observe_waitTail e n.val r
  rw [hwatch, hwatch]
  exact ⟨rfl, hr⟩

theorem edgeFree_endInit : EdgeFree [.endInit] := fun _ hr => ⟨rfl, hr⟩

/-- A receiver looks at LCD_RST for its level alone. -/
theorem edgeFree_lcdRst (b : Bool) : EdgeFree [.setLine .lcdRst b] :=
  fun _ hr => ⟨rfl, hr.buf, hr.csN, hr.scl⟩

theorem edgeFree_resetPulse (p : Params) : EdgeFree (resetPulse p) := by
  have hlevel (b : Bool) {ops : List MicroOp} (h : EdgeFree ops) :
      EdgeFree (.setLine .lcdRst b :: .wait rstHoldMs :: ops) :=
    (edgeFree_lcdRst b).cons ((edgeFree_wait rstHoldMs).cons h)
  unfold resetPulse
  split
  · exact hlevel true (hlevel false (hlevel true edgeFree_nil))
  · exact edgeFree_nil

theorem edgeFree_recordOps (r : Record) : EdgeFree (recordOps r) := by
  have hframes : EdgeFree (recordFrames r.cmd r.args) :=
    (edgeFree_frame false r.cmd).append (edgeFree_flatMap (edgeFree_frame true) r.args)
  refine hframes.append ?_
  cases r.delay with
  | none => exact edgeFree_nil
  | some d => exact edgeFree_wait (delayMs d)

/-! ### The expansion of INIT -/

/-- What the interpreter adds to the queue is the micro-ops of records, one record after the other
(rule R164). -/
theorem runRecords_records {k : Nat} {s t : State} (h : runRecords k s = some t) :
    ∃ rs : List Record, t.q = s.q ++ rs.flatMap recordOps := by
  induction k generalizing s with
  | zero =>
    obtain rfl : s = t := Option.some.inj h
    exact ⟨[], by simp⟩
  | succ k ih =>
    rw [runRecords] at h
    split at h
    · exact nomatch h
    · next r _ =>
      obtain ⟨rs, hq⟩ := ih h
      exact ⟨r :: rs, by simp [hq, runRecord_eq]⟩

/-- The queue of an accepted INIT: the reset pulse, the micro-ops of records, and EndInit (rule R160). -/
theorem execInit_records {s t : State} (hq : s.q = []) (h : execInit s = .next t) :
    ∃ rs : List Record, t.q = resetPulse s.cfg.toParams ++ rs.flatMap recordOps ++ [.endInit] := by
  have hidle : ¬ s.busy = true := by simp [hq]
  rw [execInit, if_neg hidle] at h
  split at h
  · exact nomatch h
  · next u hu =>
    obtain rfl := Host.Outcome.next.inj h
    rw [runTable] at hu
    split at hu
    · exact nomatch hu
    · obtain ⟨rs, hrs⟩ := runRecords_records hu
      exact ⟨rs, by simp [hrs]⟩

/-- What an idle block puts in its queue for a request is the same on either edge. -/
theorem exec_request_edgeFree {i : Instr} {s t : State} (hi : i.isRequest = true) (hq : s.q = [])
    (h : exec i s = .next t) : EdgeFree t.q := by
  by_cases hinit : i = .init
  · subst hinit
    obtain ⟨rs, hrs⟩ := execInit_records hq h
    rw [hrs]
    exact ((edgeFree_resetPulse _).append (edgeFree_flatMap edgeFree_recordOps rs)).append
      edgeFree_endInit
  · rcases exec_request_cases hi h with ⟨hbusy, -⟩ | ⟨-, -, -, rfl⟩ | ⟨-, -, ops, tp, -, hops, rfl⟩
    · exact absurd hq hbusy
    · simpa [hq] using edgeFree_nil
    · have hframes : ops = (busFrames s.cfg i).flatMap fun f => frame f.dc f.v := by
        cases i with
        | init => exact absurd rfl hinit
        | _ => exact hops
      change EdgeFree ops
      rw [hframes]
      exact edgeFree_frames _

/-- Settles O44: `sclHigh_in_frame` within a frame, and `exec_request_edgeFree` for the receivers. -/
theorem samplingEdgeDoesNotMatter : Obligations.SamplingEdgeDoesNotMatter := by
  unfold Obligations.SamplingEdgeDoesNotMatter
  refine ⟨fun dc v k hk => (sclHigh_in_frame (l := Lines.reset) rfl hk).1, fun s t i hq hi h => ?_⟩
  have hsame : receive .falling (runEvents t.q) = receive .rising (runEvents t.q) :=
    (exec_request_edgeFree hi hq h Receiver.start Receiver.atRest_start).1
  rw [hsame]
  exact ⟨rfl, rfl⟩

/-! ### The requests that send frames alone -/

/-- `WIN` after a data request, as a condition (rule R113). -/
theorem afterData_eq_ite (w : WindowPhase) :
    w.afterData = if w = .closed then .closed else .streaming := by
  cases w <;> rfl

/-- The two bytes of a colour, side by side, are the colour (rule R79). -/
theorem colorBytes_append (c : Color) : c.extractLsb' 8 8 ++ c.extractLsb' 0 8 = c :=
  (BitVec.extractLsb'_append_extractLsb'_eq_extractLsb' (start₁ := 0) rfl).trans
    BitVec.extractLsb'_eq_self

/-- Settles O13: the equations of an acceptance by an idle block, and the one frame. -/
theorem wrcmdSendsCommandFrame : Obligations.WrcmdSendsCommandFrame := by
  unfold Obligations.WrcmdSendsCommandFrame
  intro s v hq
  exact ⟨rfl, fun hp => congrArg _ (acceptRequest_of_idle hq hp),
    fun hp => congrArg _ (acceptRequest_of_uninit hq hp), rfl, recoveredFrames_frame false v,
    linesAfter_frame false v s.lines⟩

/-- Settles O14: as for WRCMD, with `WIN` by `afterData_eq_ite`. -/
theorem wrdataSendsDataFrame : Obligations.WrdataSendsDataFrame := by
  unfold Obligations.WrdataSendsDataFrame
  intro s v hq
  refine ⟨rfl, fun hp => ?_, fun hp => congrArg _ (acceptRequest_of_uninit hq hp),
    recoveredFrames_frame true v, congrArg Lines.sda (linesAfter_frame true v s.lines)⟩
  rw [← afterData_eq_ite]
  exact congrArg _ (acceptRequest_of_idle hq hp)

/-- Settles O15: as for WRDATA, with two frames. -/
theorem wrpixSendsHighThenLowByte : Obligations.WrpixSendsHighThenLowByte := by
  unfold Obligations.WrpixSendsHighThenLowByte
  intro s c hq
  refine ⟨?_, fun hp => ?_, fun hp => congrArg _ (acceptRequest_of_uninit hq hp), by simp, ?_⟩
  · exact congrArg (fun c' => Except.ok (Instr.wrpix c', [])) (colorBytes_append c)
  · rw [← afterData_eq_ite]
    exact congrArg _ (acceptRequest_of_idle hq hp)
  · simpa [BusFrame.data] using recoveredFrames_frames [.data (c.extractLsb' 8 8), .data (c.extractLsb' 0 8)]

end Sys2Proof.Machine
end

section
/-! SUPPORT. The obligations of `42_init.md`: the two table records, the reset pulse, INIT and its fixed
table. -/

namespace Sys2Proof

/-! ### Records and their bytes -/

/-- Rule R74's count byte with a clear flag is the count. -/
theorem argcByte_false (n : Nat) : argcByte false n = BitVec.ofNat 8 n := by
  simp [argcByte]

/-- Rule R74's count byte with the flag set is the count and 128. -/
theorem argcByte_true {n : Nat} (h : n ≤ 127) : argcByte true n = BitVec.ofNat 8 (128 + n) := by
  have hor : 128 + n = 128 ||| n := by
    simpa using Nat.two_pow_add_eq_or_of_lt (i := 7) (b := n) (by omega) 1
  rw [hor, BitVec.ofNat_or]
  rfl

/-- A record is read back from its own bytes, whatever follows them (rules R73 to R76). -/
theorem decodeRecord_encode {r : Record} (hr : r.args.length ≤ 127) (rest : List Byte) :
    decodeRecord (encode r.toInstr ++ rest) = .ok (r, rest) := by
  obtain ⟨cmd, args, delay⟩ := r
  have hbytes : encode (Record.toInstr ⟨cmd, args, delay⟩) ++ rest =
      cmd :: argcByte delay.isSome args.length :: (args ++ (delay.toList ++ rest)) := by
    cases delay <;> simp [Record.toInstr, encode]
  rw [hbytes]
  exact decodeRecord_of_bytes cmd _ args rest delay (argcCount_argcByte _ hr).symm
    (argcFlag_argcByte _ hr).symm

end Sys2Proof

namespace Sys2Proof.Machine

/-- Settles O19: `exec` of the record is `initrecNext`, and its count byte is `argcByte_false`. -/
theorem initrecSendsItsFrames : Obligations.InitrecSendsItsFrames := by
  unfold Obligations.InitrecSendsItsFrames
  intro s cmd args hn
  rw [← argcByte_false]
  exact ⟨rfl, argcFlag_argcByte false hn, rfl⟩

/-- Rule R75 in numbers: only the delay byte 255 stands for another wait than its own. -/
theorem val_delayMs (d : Byte) : (delayMs d).val = if d.toNat = 255 then 500 else d.toNat := by
  have hsentinel : d = delaySentinel ↔ d.toNat = 255 := BitVec.toNat_inj.symm
  simp only [delayMs, hsentinel]
  split <;> rfl

/-- Settles O20: as O19, with `argcByte_true` and the wait of `val_delayMs`. -/
theorem initrecDSendsItsFramesAndWaits : Obligations.InitrecDSendsItsFramesAndWaits := by
  unfold Obligations.InitrecDSendsItsFramesAndWaits
  intro s cmd args d hn
  rw [← argcByte_true hn]
  exact ⟨rfl, argcFlag_argcByte true hn, delayMs d, val_delayMs d, rfl⟩

/-! ### The reset pulse -/

/-- The events of a wait are no line writes. -/
theorem lineWrites_wait (n : WaitMs) : (opEvents (.wait n)).filter Event.isLineWrite = [] := by
  simp [opEvents, waitTail, Event.isLineWrite]

/-- The line writes of the reset pulse (rule R161). -/
theorem lineWrites_resetPulse {p : Params} (hp : p.hasRst = true) :
    (runEvents (resetPulse p)).filter Event.isLineWrite =
      [.lineWrite .lcdRst true, .lineWrite .lcdRst false, .lineWrite .lcdRst true] := by
  have hwrite (b : Bool) : (opEvents (.setLine .lcdRst b)).filter Event.isLineWrite =
    [.lineWrite .lcdRst b] := rfl
  simp [resetPulse, hp, runEvents, lineWrites_wait, hwrite]

/-- Settles O46: the pulse by its definition, its level trace by `lineWrites_resetPulse`. -/
theorem resetPulseWritesThreeLevels : Obligations.ResetPulseWritesThreeLevels := by
  unfold Obligations.ResetPulseWritesThreeLevels
  intro p l
  refine ⟨fun hp => by simp [resetPulse, hp], fun hp => ?_⟩
  have hpulse : resetPulse p = [.setLine .lcdRst true, .wait 500, .setLine .lcdRst false, .wait 500,
      .setLine .lcdRst true, .wait 500] := if_pos hp
  rw [lineWrites_resetPulse hp, hpulse]
  refine ⟨rfl, rfl, fun hl => ?_, fun hl => ?_⟩ <;> simp [levelTrace, Lines.get, hl]

/-! ### The interpreter and the two walks -/

/-- The walks of rules R77 and R164 leave the ROM at the same tables. -/
theorem wfWalk_eq_isSome (bs : List Byte) (k tp : Nat) :
    wfWalk (Memory.ofBytes bs) k tp = (expandRecords (Memory.ofBytes bs) k tp).isSome := by
  induction k generalizing tp with
  | zero => rfl
  | succ k ih =>
    by_cases h : ∃ r rest, decodeRecord (bs.drop tp) = .ok (r, rest)
    · obtain ⟨r, rest, hr⟩ := h
      rw [wfWalk_succ k hr, expandRecords_succ k hr, ih, Option.isSome_map]
    · rw [wfWalk_succ_of_truncated k h, expandRecords_succ_of_truncated k h]
      rfl

/-- A ROM is well-formed (rule R77) exactly when it expands (rule R164). -/
theorem romWellFormed_eq_isSome {rom : Memory} (hwf : rom.wf = true) :
    romWellFormed rom = (tableExpand rom).isSome := by
  rw [Memory.eq_ofBytes hwf]
  cases hn : (Memory.ofBytes (rom.map Prod.snd)).read 0 with
  | none => simp only [romWellFormed, tableExpand, hn, Option.isSome_none]
  | some n => simp only [romWellFormed, tableExpand, hn, wfWalk_eq_isSome]

/-- The record at `TP` is the one that the bytes from there on begin with. -/
theorem fetchRecord_eq_some_iff {s : State} {r : Record} :
    fetchRecord s = some r ↔ ∃ rest, decodeRecord (s.cfg.rom.bytesFrom s.tp) = .ok (r, rest) := by
  rw [fetchRecord]
  split <;> simp_all

/-- The interpreter builds the expansion of rule R164, and stops where that walk leaves the ROM. -/
theorem runRecords_q {bs : List Byte} {s : State} (k : Nat) (hrom : s.cfg.rom = Memory.ofBytes bs) :
    (runRecords k s).map State.q =
      (expandRecords (Memory.ofBytes bs) k s.tp).map (s.q ++ ·) := by
  induction k generalizing s with
  | zero => simp [runRecords, expandRecords]
  | succ k ih =>
    cases hf : fetchRecord s with
    | none =>
      have htrunc : ¬∃ r rest, decodeRecord (bs.drop s.tp) = .ok (r, rest) := by
        rintro ⟨r, hr⟩
        rw [← Memory.bytesFrom_ofBytes, ← hrom, ← fetchRecord_eq_some_iff, hf] at hr
        exact nomatch hr
      simp only [runRecords, hf, expandRecords_succ_of_truncated k htrunc, Option.map_none]
    | some r =>
      obtain ⟨rest, hr⟩ := fetchRecord_eq_some_iff.mp hf
      rw [hrom, Memory.bytesFrom_ofBytes] at hr
      have hnext : (runRecord r s).cfg.rom = Memory.ofBytes bs := by rw [runRecord_eq, ← hrom]
      simp only [runRecords, hf, ih hnext, expandRecords_succ k hr, Option.map_map]
      simp [runRecord_eq, Function.comp_def]

/-- The same of the whole table. -/
theorem runTable_q {s : State} (hwf : s.cfg.rom.wf = true) :
    (runTable s).map State.q = (tableExpand s.cfg.rom).map (s.q ++ ·) := by
  have hrom := Memory.eq_ofBytes hwf
  cases hn : s.cfg.rom.read 0 with
  | none => simp only [runTable, tableExpand, State.memRead, hn, Option.map_none]
  | some n =>
    have hrecords := runRecords_q (s := { s with tp := 1 }) n.toNat hrom
    rw [← hrom] at hrecords
    simpa only [runTable, tableExpand, State.memRead, hn] using hrecords

/-- Where the table expands, the interpreter ends, with the expansion in the queue and `TP` moved. -/
theorem runTable_of_tableExpand {s : State} {table : List MicroOp} (hwf : s.cfg.rom.wf = true)
    (h : tableExpand s.cfg.rom = some table) :
    ∃ tp, runTable s = some { s with q := s.q ++ table, tp := tp } := by
  have hq := runTable_q hwf
  rw [h, Option.map_some, Option.map_eq_some_iff] at hq
  obtain ⟨t, ht, htq⟩ := hq
  obtain ⟨ops, hops, -⟩ := runTable_eq ht
  refine ⟨t.tp, ht.trans (congrArg some ?_)⟩
  rw [← htq]
  rw [hops]

/-- INIT of an idle block whose table expands (rule R160). -/
theorem execInit_of_tableExpand {s : State} {table : List MicroOp} (hq : s.q = [])
    (hwf : s.cfg.rom.wf = true) (h : tableExpand s.cfg.rom = some table) :
    ∃ tp, execInit s = .next { s with
      ps := .initializing, win := .closed, tp := tp
      q := resetPulse s.cfg.toParams ++ table ++ [.endInit]
      traceRev := .accept (encode .init) :: s.traceRev } := by
  have hidle : ¬ s.busy = true := by simp [hq]
  obtain ⟨tp, hrun⟩ := runTable_of_tableExpand
    (s := { s.emit (.accept (encode .init)) with
      ps := .initializing, win := .closed, q := resetPulse s.cfg.toParams }) hwf h
  exact ⟨tp, by rw [execInit, if_neg hidle, hrun]; rfl⟩

/-- Settles O18: a well-formed table expands, and `execInit_of_tableExpand` says what INIT does then. -/
theorem initIsAcceptedInEveryState : Obligations.InitIsAcceptedInEveryState := by
  unfold Obligations.InitIsAcceptedInEveryState
  refine ⟨rfl, fun s hq hwf hrom => ?_⟩
  rw [romWellFormed_eq_isSome hwf, Option.isSome_iff_exists] at hrom
  obtain ⟨table, htable⟩ := hrom
  obtain ⟨tp, hexec⟩ := execInit_of_tableExpand hq hwf htable
  exact ⟨table, tp, htable, hexec⟩

/-! ### Tables of encoded records -/

/-- The walk over the bytes of records expands them in order (rule R164). -/
theorem expandRecords_of_records {bs rest : List Byte} {rs : List Record} {tp : Nat}
    (hrs : ∀ r ∈ rs, r.args.length ≤ 127)
    (hbs : bs.drop tp = rs.flatMap (fun r => encode r.toInstr) ++ rest) :
    expandRecords (Memory.ofBytes bs) rs.length tp = some (rs.flatMap recordOps) := by
  induction rs generalizing tp with
  | nil => rfl
  | cons r rs ih =>
    have hread : decodeRecord (bs.drop tp) =
        .ok (r, rs.flatMap (fun r => encode r.toInstr) ++ rest) := by
      rw [hbs, List.flatMap_cons, List.append_assoc]
      exact decodeRecord_encode (hrs r (by simp)) _
    have hnext := drop_of_decodeRecord hread
    rw [List.drop_drop] at hnext
    rw [List.length_cons, expandRecords_succ _ hread,
      ih (fun r' h => hrs r' (List.mem_cons_of_mem _ h)) hnext]
    rfl

/-- A table of at most 255 records expands to the records' micro-ops. -/
theorem tableExpand_tableImage {rs : List Record} (hlen : rs.length ≤ 255)
    (hrs : ∀ r ∈ rs, r.args.length ≤ 127) :
    tableExpand (Memory.ofBytes (tableImage rs)) = some (rs.flatMap recordOps) := by
  have hcount : (BitVec.ofNat 8 rs.length).toNat = rs.length := by
    rw [BitVec.toNat_ofNat, Nat.mod_eq_of_lt (by omega)]
  rw [tableExpand, Memory.read_ofBytes]
  change expandRecords _ (BitVec.ofNat 8 rs.length).toNat 1 = _
  rw [hcount]
  exact expandRecords_of_records (rest := []) hrs (by simp [tableImage])

/-! ### What the receiver recovers from an expansion -/

/-- From rest, the reference receiver recovers the frames `fs` from the micro-ops and is at rest again. -/
def Recovers (ops : List MicroOp) (fs : List BusFrame) : Prop :=
  ∀ r : Receiver, r.AtRest →
    (r.watch .rising ops).AtRest ∧ (r.watch .rising ops).frames = r.frames ++ fs

theorem Recovers.recoveredFrames {ops : List MicroOp} {fs : List BusFrame} (h : Recovers ops fs) :
    recoveredFrames (runEvents ops) = fs :=
  (h Receiver.start Receiver.atRest_start).2

theorem recovers_nil : Recovers [] [] := fun _ hr => ⟨hr, by simp⟩

theorem Recovers.append {a b : List MicroOp} {fs gs : List BusFrame} (ha : Recovers a fs)
    (hb : Recovers b gs) : Recovers (a ++ b) (fs ++ gs) := by
  intro r hr
  obtain ⟨hrest, hfs⟩ := ha r hr
  obtain ⟨hrest', hgs⟩ := hb _ hrest
  rw [Receiver.watch_append]
  exact ⟨hrest', by rw [hgs, hfs, List.append_assoc]⟩

theorem recovers_flatMap {α : Type} {f : α → List MicroOp} {g : α → List BusFrame}
    (h : ∀ a, Recovers (f a) (g a)) (as : List α) : Recovers (as.flatMap f) (as.flatMap g) := by
  induction as with
  | nil => exact recovers_nil
  | cons a as ih =>
    rw [List.flatMap_cons, List.flatMap_cons]
    exact (h a).append ih

theorem recovers_frames (fs : List BusFrame) : Recovers (fs.flatMap fun f => frame f.dc f.v) fs :=
  fun r hr => ⟨(edgeFree_frames fs r hr).2, hr.watch_frames .rising fs⟩

theorem recovers_wait (n : WaitMs) : Recovers [.wait n] [] := by
  intro r hr
  have hwatch : r.watch .rising [.wait n] = r := by
    simpa [Receiver.watch, runEvents, opEvents, Receiver.observe] using observe_waitTail .rising n.val r
  simpa [hwatch] using hr

theorem recovers_endInit : Recovers [.endInit] [] :=
  fun r hr => ⟨hr, (List.append_nil r.frames).symm⟩

/-- The writes of LCD_RST and their waits carry no frame. -/
theorem recovers_resetPulse (p : Params) : Recovers (resetPulse p) [] := by
  have hlevel (b : Bool) : Recovers ([.setLine .lcdRst b] ++ [.wait rstHoldMs]) [] :=
    Recovers.append (gs := []) (fs := [])
      (fun r hr => ⟨(edgeFree_lcdRst b r hr).2, (List.append_nil r.frames).symm⟩)
      (recovers_wait rstHoldMs)
  unfold resetPulse
  split
  · exact ((hlevel true).append (hlevel false)).append (hlevel true)
  · exact recovers_nil

/-- A record's frames are those of its command and arguments; its wait carries none (rule R167). -/
theorem recovers_recordOps (r : Record) : Recovers (recordOps r) (recordBusFrames r) := by
  have hframes : recordFrames r.cmd r.args =
      (recordBusFrames r).flatMap fun f => frame f.dc f.v := by
    rw [recordBusFrames, List.flatMap_cons, List.flatMap_map]
    rfl
  have hwait : Recovers (r.delay.map fun d => MicroOp.wait (delayMs d)).toList [] := by
    cases r.delay with
    | none => exact recovers_nil
    | some d => exact recovers_wait (delayMs d)
  rw [recordOps, hframes]
  simpa using (recovers_frames (recordBusFrames r)).append hwait

/-- From INIT's expansion the receiver recovers the frames of the table's records, in order (rule R143). -/
theorem recovers_init (p : Params) (rs : List Record) :
    Recovers (resetPulse p ++ rs.flatMap recordOps ++ [.endInit]) (rs.flatMap recordBusFrames) := by
  simpa using ((recovers_resetPulse p).append (recovers_flatMap recovers_recordOps rs)).append
    recovers_endInit

/-! ### The fixed table -/

/-- The eight records of the fixed table (rule R180). -/
def fixedRecords (p : Params) : List Record :=
  [⟨p.cmdContrast, p.contrastArgs, none⟩, ⟨p.cmdSlpout, [], some 10⟩, ⟨p.cmdNoron, [], some 10⟩,
   ⟨p.cmdInvoff, [], some 10⟩, ⟨p.cmdIdmoff, [], some 10⟩, ⟨p.cmdMadctl, [0x00], none⟩,
   ⟨p.cmdColmod, [0x05], none⟩, ⟨p.cmdDispon, [], some 255⟩]

/-- The image of rule R181 is the eight records, encoded. -/
theorem fixedImage_eq_tableImage (p : Params) : fixedImage p = tableImage (fixedRecords p) := by
  have hcount : argcByte true 0 = 0x80 ∧ argcByte false 1 = 0x01 := by decide
  simp [fixedImage, tableImage, fixedRecords, Record.toInstr, encode, argcByte_false, hcount]

theorem length_fixedImage (p : Params) : (fixedImage p).length = 24 + p.contrastArgs.length := by
  simp [fixedImage]
  omega

theorem tableExpand_ofParams {p : Params} (hp : p.wf = true) :
    tableExpand (Config.ofParams p).rom = some ((fixedRecords p).flatMap recordOps) := by
  have hcontrast : p.contrastArgs.length ≤ 127 := by simpa [Params.wf] using hp
  rw [Config.ofParams, fixedImage_eq_tableImage]
  exact tableExpand_tableImage (rs := fixedRecords p) (by simp [fixedRecords])
    (by simp [fixedRecords, hcontrast])

/-- The micro-ops of the fixed table: its frames and its five waits (rule R183). -/
theorem fixedRecords_ops (p : Params) :
    (fixedRecords p).flatMap recordOps =
      frame false p.cmdContrast ++ p.contrastArgs.flatMap (frame true) ++
      frame false p.cmdSlpout ++ [.wait 10] ++ frame false p.cmdNoron ++ [.wait 10] ++
      frame false p.cmdInvoff ++ [.wait 10] ++ frame false p.cmdIdmoff ++ [.wait 10] ++
      frame false p.cmdMadctl ++ frame true 0x00 ++ frame false p.cmdColmod ++ frame true 0x05 ++
      frame false p.cmdDispon ++ [.wait 500] := by
  have hdelay : delayMs 10#8 = 10 ∧ delayMs 255#8 = 500 := by decide
  have hdata : dataFrame = frame true := rfl
  simp [fixedRecords, recordOps, recordFrames, commandFrame, hdata, hdelay]

theorem length_resetPulse (p : Params) : (resetPulse p).length = if p.hasRst then 6 else 0 := by
  rw [resetPulse]
  split <;> rfl

/-- A record is 29 writes a frame, and one wait where it has a delay byte (rule R135). -/
theorem length_recordOps (r : Record) :
    (recordOps r).length = 29 * (1 + r.args.length) + r.delay.toList.length := by
  have hdata : (r.args.flatMap dataFrame).length = 29 * r.args.length := by
    simp [List.length_flatMap, dataFrame, Nat.mul_comm]
  simp only [recordOps, recordFrames, commandFrame, List.length_append, length_frame, hdata]
  cases r.delay <;> simp <;> omega

/-- Settles O49: the image is that of `fixedRecords`, whose expansion, length and frames are those of
any table of records. -/
theorem fixedTableExpansion : Obligations.FixedTableExpansion := by
  unfold Obligations.FixedTableExpansion
  intro p hp
  have htable := tableExpand_ofParams hp
  have hwf : (Config.ofParams p).rom.wf = true := Memory.wf_ofBytes _
  refine ⟨(Memory.romLen_ofBytes _).trans (length_fixedImage p), hwf, ?_,
    resetPulse p ++ (fixedRecords p).flatMap recordOps ++ [.endInit], ?_, ?_, ?_, ?_⟩
  · rw [romWellFormed_eq_isSome hwf, htable]
    rfl
  · rw [expandInit, htable]
    rfl
  · rw [fixedRecords_ops]
    simp only [List.append_assoc]
    rfl
  · simp [length_resetPulse, length_recordOps, fixedRecords]
    omega
  · rw [(recovers_init p (fixedRecords p)).recoveredFrames]
    simp [fixedRecords, recordBusFrames]

end Sys2Proof.Machine
end

section
/-! SUPPORT. The obligations of `43_window.md`: the addressing window and the orientation. -/

namespace Sys2Proof.Machine

/-! ### SETWIN -/

/-- Rule R200 in numbers: a coordinate and its offset are added modulo 256. -/
theorem withOrigin_eq_ofNat (x off : Byte) :
    withOrigin x off = BitVec.ofNat 8 ((x.toNat + off.toNat) % 256) :=
  BitVec.eq_of_toNat_eq (by simp [withOrigin, BitVec.toNat_add])

/-- The expansion of SETWIN is seven frames, sent one after the other (rule R201). -/
theorem windowFrames_eq_flatMap (s : State) (x0 y0 x1 y1 : Byte) :
    windowFrames s x0 y0 x1 y1 =
      (busFrames s.cfg (.setwin x0 y0 x1 y1)).flatMap fun f => frame f.dc f.v := by
  simp [windowFrames, busFrames, commandFrame, dataFrame, BusFrame.command, BusFrame.data,
    State.vpColOff, State.vpRowOff]

theorem length_windowFrames (s : State) (x0 y0 x1 y1 : Byte) :
    (windowFrames s x0 y0 x1 y1).length = 203 := by
  simp [windowFrames, commandFrame, dataFrame]

/-- Settles O16: the equations of an acceptance by an idle block, the sums by `withOrigin_eq_ofNat`, and
what a receiver makes of frames sent one after the other. -/
theorem setwinProgramsWindow : Obligations.SetwinProgramsWindow := by
  unfold Obligations.SetwinProgramsWindow
  intro s x0 y0 x1 y1 hq
  refine ⟨rfl, fun hp => ⟨windowFrames s x0 y0 x1 y1, congrArg _ (acceptRequest_of_idle hq hp), ?_,
    length_windowFrames s x0 y0 x1 y1, ?_⟩, fun hp => congrArg _ (acceptRequest_of_uninit hq hp)⟩
  · simp only [← withOrigin_eq_ofNat]
    rfl
  · rw [windowFrames_eq_flatMap]
    exact recoveredFrames_frames _

/-! ### SETROT -/

/-- Rule R205 in numbers. -/
theorem toNat_rotationMod4 (r : Byte) : (rotationMod4 r).toNat = r.toNat % 4 := by
  simp [rotationMod4]

/-- The panel's sides, swapped when the rotation's number is odd (rules R1 and R206). -/
theorem viewportOf_eq_ite_toNat (r : BitVec 2) :
    viewportOf r = if r.toNat % 2 = 1 then (69, 97) else (97, 69) := by
  have hbit : r.getLsbD 0 = decide (r.toNat % 2 = 1) := Nat.testBit_zero _
  rw [viewportOf, hbit]
  simp only [decide_eq_true_eq, panelW, panelH]

/-- The mode byte of a rotation, by the rotation's number (rule R5). -/
theorem rotModeOf_eq_ite_toNat (m : RotModes) (r : BitVec 2) :
    rotModeOf m r =
      if r.toNat = 0 then m.r0 else if r.toNat = 1 then m.r1 else if r.toNat = 2 then m.r2 else m.r3 := by
  simp only [rotModeOf, ← BitVec.toNat_inj]
  rfl

/-- SETROT accepted by an idle block outside UNINIT: the acceptance that every request shares, with the two
orientation frames in the queue (rule R206). -/
theorem exec_setrot_of_idle {s : State} (r : Byte) (hq : s.q = []) (hp : s.ps ≠ .uninit) :
    exec (.setrot r) s =
      .next (accepted (.setrot r) (rotationFrames s (rotationMod4 r)) s.tp s) :=
  congrArg _ (acceptRequest_of_idle hq hp)

/-- Settles O17: the accepted state of `exec_setrot_of_idle`, whose viewport and mode byte go by the number
of the rotation (`toNat_rotationMod4`). -/
theorem setrotTurnsViewport : Obligations.SetrotTurnsViewport := by
  unfold Obligations.SetrotTurnsViewport
  intro s r hq
  have hviewport : viewportOf (rotationMod4 r) = if r.toNat % 2 = 1 then (69, 97) else (97, 69) := by
    rw [viewportOf_eq_ite_toNat, toNat_rotationMod4, Nat.mod_mod_of_dvd _ (by decide)]
  refine ⟨rfl, fun hp => ⟨_, exec_setrot_of_idle r hq hp, toNat_rotationMod4 r, fun heven => ?_,
    fun hodd => ?_, ?_, rfl, rfl⟩, fun hp => congrArg _ (acceptRequest_of_uninit hq hp)⟩
  · exact Prod.mk.inj (hviewport.trans (if_neg (by omega)))
  · exact Prod.mk.inj (hviewport.trans (if_pos hodd))
  · rw [← toNat_rotationMod4, ← rotModeOf_eq_ite_toNat]
    rfl

end Sys2Proof.Machine
end

section
/-! SUPPORT. The obligations of `45_host.md`: the packed colour and the host's drawing primitives. -/

namespace Sys2Proof.Machine

/-! ### Host integers -/

/-- A host integer in the range of a byte is offered unchanged (rule R230). -/
theorem toNat_byteOfInt {x : Int} (hx : 0 ≤ x) (hx' : x < 256) : ((byteOfInt x).toNat : Int) = x := by
  rw [byteOfInt, BitVec.toNat_ofInt]
  omega

@[simp] theorem byteOfInt_toNat (b : Byte) : byteOfInt b.toNat = b := by
  simp [byteOfInt]

theorem inside_iff (x : Int) (w : Byte) : inside x w = true ↔ 0 ≤ x ∧ x < w.toNat := by
  simp [inside]

/-- A coordinate inside the viewport is offered unchanged (rule R230). -/
theorem toNat_byteOfInt_of_inside {x : Int} {w : Byte} (hx : 0 ≤ x) (hx' : x < w.toNat) :
    ((byteOfInt x).toNat : Int) = x := by
  have hw := w.isLt
  exact toNat_byteOfInt hx (by omega)

theorem pointGuard_iff (vpW vpH : Byte) (x y : Int) :
    (inside x vpW && inside y vpH) = true ↔ 0 ≤ x ∧ x < vpW.toNat ∧ 0 ≤ y ∧ y < vpH.toNat := by
  rw [Bool.and_eq_true, inside_iff, inside_iff, and_assoc]

theorem runGuard_iff (vpW vpH : Byte) (x y len : Int) :
    (inside x vpW && inside y vpH && decide (0 < len)) = true ↔
      0 ≤ x ∧ x < vpW.toNat ∧ 0 ≤ y ∧ y < vpH.toNat ∧ 0 < len := by
  simp only [Bool.and_eq_true, inside_iff, decide_eq_true_eq, and_assoc]

theorem rectGuard_iff (vpW vpH : Byte) (x y w h : Int) :
    (inside x vpW && inside y vpH && decide (0 ≤ w) && decide (0 ≤ h)) = true ↔
      0 ≤ x ∧ x < vpW.toNat ∧ 0 ≤ y ∧ y < vpH.toNat ∧ 0 ≤ w ∧ 0 ≤ h := by
  simp only [Bool.and_eq_true, inside_iff, decide_eq_true_eq, and_assoc]

/-! ### The clamp -/

/-- The clamp of rules R233 and R235 leaves the smaller of the length and what is left of the side. -/
theorem clampTo_eq_min (x len : Int) (w : Byte) : clampTo x len w = min len (w.toNat - x) := by
  rw [clampTo]
  split <;> omega

theorem natCast_toNat_clampTo {x len : Int} {w : Byte} (hx : x < w.toNat) (hlen : 0 ≤ len) :
    ((clampTo x len w).toNat : Int) = clampTo x len w :=
  Int.toNat_of_nonneg (by rw [clampTo_eq_min]; omega)

/-- The last pixel of a clamped run is offered unchanged: it lies inside the viewport (rule R233). -/
theorem toNat_byteOfInt_runEnd {x len : Int} {w : Byte} (hx : 0 ≤ x) (hx' : x < w.toNat) (hlen : 0 < len) :
    ((byteOfInt (x + clampTo x len w - 1)).toNat : Int) = x + (clampTo x len w).toNat - 1 := by
  rw [natCast_toNat_clampTo hx' hlen.le, clampTo_eq_min]
  exact toNat_byteOfInt_of_inside (w := w) (by omega) (by omega)

/-- The window end of a clamped rectangle is offered unchanged: it is the viewport's size at most
(rule R235). -/
theorem toNat_byteOfInt_rectEnd {x len : Int} {w : Byte} (hx : 0 ≤ x) (hx' : x < w.toNat) (hlen : 0 ≤ len) :
    ((byteOfInt (x + clampTo x len w)).toNat : Int) = x + (clampTo x len w).toNat := by
  have hw := w.isLt
  rw [natCast_toNat_clampTo hx' hlen, clampTo_eq_min]
  exact toNat_byteOfInt (by omega) (by omega)

/-! ### Points and runs -/

/-- Settles O57: the guard is the viewport's (`pointGuard_iff`), and a byte holds the coordinates that
pass it. -/
theorem setPixelDrawsInsideOnly : Obligations.SetPixelDrawsInsideOnly := by
  unfold Obligations.SetPixelDrawsInsideOnly
  intro vpW vpH x y c
  refine ⟨fun hin => ?_, fun hout => if_neg (mt (pointGuard_iff vpW vpH x y).mp hout)⟩
  have ⟨hx, hx', hy, hy'⟩ := hin
  exact ⟨byteOfInt x, byteOfInt y, toNat_byteOfInt_of_inside hx hx', toNat_byteOfInt_of_inside hy hy',
    if_pos ((pointGuard_iff vpW vpH x y).mpr hin)⟩

/-- Settles O58: with a start inside, the pixels written are the clamped length (`clampTo_eq_min`), and the
window ends at the last of them (`toNat_byteOfInt_runEnd`), in each direction along its own side. -/
theorem runsAreClampedToViewport : Obligations.RunsAreClampedToViewport := by
  unfold Obligations.RunsAreClampedToViewport
  intro vpW vpH x y len c
  have hguard := runGuard_iff vpW vpH x y len
  refine ⟨fun hout => ⟨if_neg (mt hguard.mp hout), if_neg (mt hguard.mp hout)⟩, fun hin => ?_⟩
  have ⟨hx, hx', hy, hy', hlen⟩ := hin
  have hbx := toNat_byteOfInt_of_inside hx hx'
  have hby := toNat_byteOfInt_of_inside hy hy'
  constructor
  · exact ⟨_, _, _, _, (natCast_toNat_clampTo hx' hlen.le).trans (clampTo_eq_min x len vpW), hbx, hby,
      toNat_byteOfInt_runEnd hx hx' hlen, if_pos (hguard.mpr hin)⟩
  · exact ⟨_, _, _, _, (natCast_toNat_clampTo hy' hlen.le).trans (clampTo_eq_min y len vpH), hbx, hby,
      toNat_byteOfInt_runEnd hy hy' hlen, if_pos (hguard.mpr hin)⟩

/-! ### Rectangles -/

theorem fillOrder_succ (w h : Nat) :
    fillOrder w (h + 1) = (List.range (w + 1)).reverse.map (fun col => (h + 1, col)) ++ fillOrder w h := by
  rw [fillOrder, List.range_succ (n := h + 1), List.reverse_concat, List.flatMap_cons, fillOrder]

@[simp] theorem length_fillOrder (w h : Nat) : (fillOrder w h).length = (w + 1) * (h + 1) := by
  induction h with
  | zero => simp [fillOrder]
  | succ h ih =>
    rw [fillOrder_succ, List.length_append, ih]
    simp
    ring

/-- A row of the stream has its columns in descending order (rule R235). -/
theorem getElem?_fillRow (row : Nat) {w k : Nat} (hk : k < w + 1) :
    ((List.range (w + 1)).reverse.map (fun col => (row, col)))[k]? = some (row, w - k) := by
  rw [List.getElem?_map, List.getElem?_reverse (by simpa using hk)]
  simp

/-- The position of the `k`-th pixel: rows of `w + 1` pixels, rows and columns descending (rule R235). -/
theorem getElem?_fillOrder (w h k : Nat) (hk : k < (w + 1) * (h + 1)) :
    (fillOrder w h)[k]? = some (h - k / (w + 1), w - k % (w + 1)) := by
  induction h generalizing k with
  | zero =>
    have hrow : k < w + 1 := by simpa using hk
    have h0 : fillOrder w 0 = (List.range (w + 1)).reverse.map (fun col => (0, col)) := by simp [fillOrder]
    rw [h0, getElem?_fillRow 0 hrow, Nat.mod_eq_of_lt hrow, Nat.zero_sub]
  | succ h ih =>
    rw [fillOrder_succ]
    by_cases hrow : k < w + 1
    · rw [List.getElem?_append_left (by simpa using hrow), getElem?_fillRow (h + 1) hrow,
        Nat.mod_eq_of_lt hrow, Nat.div_eq_of_lt hrow, Nat.sub_zero]
    · have hle : w + 1 ≤ k := Nat.le_of_not_lt hrow
      have hrest : k - (w + 1) < (w + 1) * (h + 1) := by
        rw [Nat.mul_succ] at hk
        omega
      have hdiv : k / (w + 1) = (k - (w + 1)) / (w + 1) + 1 := Nat.div_eq_sub_div (Nat.succ_pos w) hle
      rw [List.getElem?_append_right (by simpa using hle)]
      simp only [List.length_map, List.length_reverse, List.length_range]
      rw [ih _ hrest, hdiv, Nat.mod_eq_sub_mod hle, Nat.add_sub_add_right]

/-- fillRect of a rectangle that starts inside: its window and one pixel for each position (rule R235). -/
theorem fillRectRequests_of_inside {vpW vpH : Byte} {x y w h : Int} (c : Color)
    (hin : 0 ≤ x ∧ x < vpW.toNat ∧ 0 ≤ y ∧ y < vpH.toNat ∧ 0 ≤ w ∧ 0 ≤ h) :
    fillRectRequests vpW vpH x y w h c =
      .setwin (byteOfInt x) (byteOfInt y) (byteOfInt (x + clampTo x w vpW))
          (byteOfInt (y + clampTo y h vpH)) ::
        List.replicate (((clampTo x w vpW).toNat + 1) * ((clampTo y h vpH).toNat + 1)) (.wrpix c) := by
  rw [← length_fillOrder, ← List.map_const']
  exact if_pos ((rectGuard_iff vpW vpH x y w h).mpr hin)

/-- fillScreen of any viewport that is not empty: no clamp applies (rule R236). -/
theorem fillScreenRequests_eq {vpW vpH : Byte} (c : Color) (hw : 0 < vpW.toNat) (hh : 0 < vpH.toNat) :
    fillScreenRequests vpW vpH c =
      .setwin 0 0 vpW vpH :: List.replicate ((vpW.toNat + 1) * (vpH.toNat + 1)) (.wrpix c) := by
  have hclamp (b : Byte) : clampTo 0 b.toNat b = b.toNat := by simp [clampTo_eq_min]
  rw [fillScreenRequests, fillRectRequests_of_inside c (by omega)]
  simp only [hclamp, Int.zero_add, byteOfInt_toNat, Int.toNat_natCast]
  rfl

/-- At every rotation the full screen with its extra row and column has 98 × 70 pixels (rules R26 and
R236). -/
theorem viewportInv_screenPixels {s : State} (hs : ViewportInv s) :
    0 < s.vpW.toNat ∧ 0 < s.vpH.toNat ∧ (s.vpW.toNat + 1) * (s.vpH.toNat + 1) = 6860 := by
  obtain ⟨hw, hh⟩ := (viewportInv_iff s).mp hs
  rw [hw, hh, viewportOf_eq_ite_toNat]
  split <;> decide

/-- Settles O59: the window and the stream by `fillRectRequests_of_inside`, the order by
`getElem?_fillOrder`, and the full screen by `fillScreenRequests_eq` with the viewport's two sizes. -/
theorem fillRectStreamsExtraRowAndColumn : Obligations.FillRectStreamsExtraRowAndColumn := by
  unfold Obligations.FillRectStreamsExtraRowAndColumn
  refine ⟨fun vpW vpH x y w h c => ⟨fun hout => if_neg (mt (rectGuard_iff vpW vpH x y w h).mp hout),
    fun hin => ?_⟩, getElem?_fillOrder, fun s c hs => ⟨rfl, ?_⟩⟩
  · have ⟨hx, hx', hy, hy', hw, hh⟩ := hin
    exact ⟨_, _, _, _, _, _, natCast_toNat_clampTo hx' hw, natCast_toNat_clampTo hy' hh,
      toNat_byteOfInt_of_inside hx hx', toNat_byteOfInt_of_inside hy hy', toNat_byteOfInt_rectEnd hx hx' hw,
      toNat_byteOfInt_rectEnd hy hy' hh, fillRectRequests_of_inside c hin⟩
  · obtain ⟨hw, hh, hpixels⟩ := viewportInv_screenPixels hs
    rw [fillScreenRequests_eq c hw hh, hpixels]

/-! ### The packed colour -/

/-- A byte shifted within a 16-bit word loses no bit. -/
theorem toNat_setWidth_shiftLeft (b : Byte) {k : Nat} (hk : k ≤ 8) :
    (b.setWidth 16 <<< k).toNat = b.toNat <<< k := by
  have hpow : (2 : Nat) ^ k ≤ 2 ^ 8 := Nat.pow_le_pow_right (by decide) hk
  have hlt : b.toNat * 2 ^ k < 2 ^ 16 := by
    calc b.toNat * 2 ^ k < 2 ^ 8 * 2 ^ k := Nat.mul_lt_mul_of_pos_right b.isLt (by positivity)
      _ ≤ 2 ^ 8 * 2 ^ 8 := Nat.mul_le_mul_left _ hpow
      _ = 2 ^ 16 := by decide
  rw [BitVec.toNat_shiftLeft, BitVec.toNat_setWidth_of_le (by decide), Nat.shiftLeft_eq,
    Nat.mod_eq_of_lt hlt]

/-- Rule R231 in numbers. -/
theorem toNat_packColor565 (r g b : Byte) :
    (packColor565 r g b).toNat =
      ((r.toNat &&& 0xF8) <<< 8) ||| ((g.toNat &&& 0xFC) <<< 3) ||| (b.toNat >>> 3) := by
  rw [packColor565, BitVec.toNat_or, BitVec.toNat_or, toNat_setWidth_shiftLeft _ (by decide),
    toNat_setWidth_shiftLeft _ (by decide), BitVec.toNat_setWidth_of_le (by decide)]
  simp

/-- The mask that clears the low `k` bits of a byte. -/
theorem getLsbD_and_highMask (b : Byte) (k i : Nat) :
    (b &&& BitVec.allOnes 8 <<< k).getLsbD i = (decide (k ≤ i) && b.getLsbD i) := by
  have hbit : b.getLsbD i = true → i < 8 := BitVec.lt_of_getLsbD
  simp only [BitVec.getLsbD_and, BitVec.getLsbD_shiftLeft, BitVec.getLsbD_allOnes]
  grind

/-- Rule R231 as three fields side by side, bit by bit: each mask keeps the bits from 3 or from 2 on. -/
theorem packColor565_eq_append (r g b : Byte) :
    packColor565 r g b = r.extractLsb' 3 5 ++ g.extractLsb' 2 6 ++ b.extractLsb' 3 5 := by
  have hF8 : (0xF8 : Byte) = BitVec.allOnes 8 <<< 3 := by decide
  have hFC : (0xFC : Byte) = BitVec.allOnes 8 <<< 2 := by decide
  rw [packColor565, hF8, hFC]
  refine BitVec.eq_of_getLsbD_eq fun i hi => ?_
  simp only [BitVec.getLsbD_or, BitVec.getLsbD_shiftLeft, BitVec.getLsbD_setWidth, getLsbD_and_highMask,
    BitVec.getLsbD_ushiftRight, BitVec.getLsbD_append, BitVec.getLsbD_extractLsb']
  rcases (by omega : i < 5 ∨ (5 ≤ i ∧ i < 11) ∨ 11 ≤ i) with hblue | ⟨hlow, hgreen⟩ | hred
  · have hr : ¬ 3 ≤ i - 8 := by omega
    have hg : ¬ 2 ≤ i - 3 := by omega
    simp [hi, hblue, hr, hg]
  · have hr : ¬ 3 ≤ i - 8 := by omega
    have hb : b.getLsbD (3 + i) = false := BitVec.getLsbD_of_ge _ _ (by omega)
    have hfield : 2 + (i - 5) = i - 3 := by omega
    rw [hfield, hb, if_neg (by omega), if_pos (by omega)]
    have hmask : 2 ≤ i - 3 := by omega
    simp [hi, hr, hmask, show ¬ i < 3 by omega, show i - 3 < 16 by omega, show i - 5 < 6 by omega]
  · have hg : g.getLsbD (i - 3) = false := BitVec.getLsbD_of_ge _ _ (by omega)
    have hb : b.getLsbD (3 + i) = false := BitVec.getLsbD_of_ge _ _ (by omega)
    have hfield : 3 + (i - 5 - 6) = i - 8 := by omega
    rw [hfield, hg, hb, if_neg (by omega), if_neg (by omega)]
    have hmask : 3 ≤ i - 8 := by omega
    simp [hi, hmask, show ¬ i < 8 by omega, show i - 8 < 16 by omega, show i - 5 - 6 < 5 by omega]

/-- Settles O56: the two readings, as numbers and bit by bit. -/
theorem packColorIsFieldConcat : Obligations.PackColorIsFieldConcat := by
  unfold Obligations.PackColorIsFieldConcat
  exact fun r g b => ⟨toNat_packColor565 r g b, packColor565_eq_append r g b⟩

end Sys2Proof.Machine
end

section
/-! SUPPORT. The obligations of `60_exceptions.md`: the two faults and the tick. -/

namespace Sys2Proof.Machine

/-! ### Raising a fault -/

/-- A fault of either kind writes its bit and the trace, and nothing else (rule R273). -/
@[simp] theorem raiseFault_frame (s : State) (k : FaultKind) :
    (s.raiseFault k).lines = s.lines ∧ (s.raiseFault k).vpW = s.vpW ∧ (s.raiseFault k).vpH = s.vpH ∧
    (s.raiseFault k).vpRot = s.vpRot ∧ (s.raiseFault k).ps = s.ps ∧ (s.raiseFault k).win = s.win ∧
    (s.raiseFault k).q = s.q := by
  cases k <;> simp

/-- A fault of either kind clears no fault bit (rule R275). -/
theorem raiseFault_keeps_faultBits (s : State) (k : FaultKind) :
    (s.fIllreq = true → (s.raiseFault k).fIllreq = true) ∧
    (s.fNotinit = true → (s.raiseFault k).fNotinit = true) := by
  cases k <;> simp

/-- A request other than INIT is an acceptance with its own effect (rule R101). -/
theorem exec_eq_acceptRequest {i : Instr} (hi : i.isRequest = true) (hn : i ≠ .init) (s : State) :
    ∃ effect, exec i s = .next (acceptRequest i effect s) := by
  cases i with
  | init => exact absurd rfl hn
  | initrec | initrecD => exact absurd hi Bool.false_ne_true
  | _ => exact ⟨_, rfl⟩

/-- In UNINIT an idle block drops every request but INIT and raises NOTINIT (rule R272). -/
theorem exec_request_of_uninit {i : Instr} {s : State} (hi : i.isRequest = true) (hn : i ≠ .init)
    (hq : s.q = []) (hp : s.ps = .uninit) :
    exec i s = .next ((s.emit (.accept (encode i))).raiseFault .notinit) := by
  obtain ⟨effect, hexec⟩ := exec_eq_acceptRequest hi hn s
  rw [hexec, acceptRequest_of_uninit hq hp]

/-! ### Which steps raise a fault -/

/-- From `s` to `t` no fault is raised: the fault bits are kept and no Fault event is appended. -/
def RaisesNoFault (s t : State) : Prop :=
  t.fIllreq = s.fIllreq ∧ t.fNotinit = s.fNotinit ∧
    ∃ es, t.trace = s.trace ++ es ∧ ∀ k, .fault k ∉ es

theorem RaisesNoFault.of_same {s t : State} (hi : t.fIllreq = s.fIllreq) (hn : t.fNotinit = s.fNotinit)
    (htrace : t.trace = s.trace) : RaisesNoFault s t :=
  ⟨hi, hn, [], by simp [htrace], by simp⟩

/-- One appended event that is no Fault event raises none. -/
theorem RaisesNoFault.of_event {s t : State} {e : Event} (hi : t.fIllreq = s.fIllreq)
    (hn : t.fNotinit = s.fNotinit) (htrace : t.traceRev = e :: s.traceRev) (he : ∀ k, e ≠ .fault k) :
    RaisesNoFault s t :=
  ⟨hi, hn, [e], by simp [State.trace, htrace], fun k hk => he k (List.mem_singleton.mp hk).symm⟩

/-- No micro-op faults (rule R270). -/
theorem perform_raisesNoFault (s : State) : RaisesNoFault s (perform s) := by
  rcases perform_cases s with ⟨e, -⟩ | ⟨l, b, ops, -, e⟩ | ⟨n, ops, -, -, e⟩ | ⟨n, ops, -, -, -, e⟩ |
    ⟨ops, -, e⟩ <;> rw [e]
  · exact .of_same rfl rfl rfl
  all_goals exact .of_event rfl rfl rfl (by simp)

/-- No tick faults (rule R281). -/
theorem tick_raisesNoFault (s : State) : RaisesNoFault s (tick s) := by
  rcases tick_cases s with ⟨e, -⟩ | ⟨-, -, e⟩ <;> rw [e]
  · exact .of_same rfl rfl rfl
  · exact .of_event rfl rfl rfl (by simp)

/-- A request raises no fault, or an idle block drops it with NOTINIT (rules R270 and R272). -/
theorem exec_request_faults {i : Instr} {s t : State} (hi : i.isRequest = true)
    (h : exec i s = .next t) :
    RaisesNoFault s t ∨ s.q = [] ∧ t = (s.emit (.accept (encode i))).raiseFault .notinit := by
  rcases exec_request_cases hi h with ⟨-, rfl⟩ | ⟨hq, -, -, rfl⟩ | ⟨-, -, ops, tp, -, -, rfl⟩
  · exact .inl (.of_same rfl rfl rfl)
  · exact .inr ⟨hq, rfl⟩
  · exact .inl (.of_event rfl rfl rfl (by simp))

/-- What a step can do about the faults: Reset clears them, a step of an idle block's host may drop the
offered request with one, and every other step raises none (rules R270 to R275). -/
theorem step_faults {s t : State} (h : step s = .next t) :
    (mover s = .resetInput ∧ t = blockReset (afterTurnTaken s)) ∨
    RaisesNoFault s t ∨
    (s.q = [] ∧ ∃ port req k,
      t = ({ afterTurnTaken s with port := port }.emit (.accept req)).raiseFault k) := by
  rcases step_cases h with hreset | ⟨-, rfl⟩ | ⟨-, rfl⟩ | ⟨-, -, rfl⟩ | ⟨-, -, port, calls, rfl⟩ |
    ⟨-, hq, b, port, rfl⟩ | ⟨-, -, i, rest, -, hi, he⟩
  · exact .inl hreset
  · exact .inr (.inl (tick_raisesNoFault (afterTurnTaken s)))
  · exact .inr (.inl (perform_raisesNoFault (afterTurnTaken s)))
  · exact .inr (.inl (.of_same rfl rfl rfl))
  · exact .inr (.inl (.of_same rfl rfl rfl))
  · exact .inr (.inr ⟨hq, port, [b], .illreq, rfl⟩)
  · rcases exec_request_faults hi he with hnone | ⟨hq, rfl⟩
    · exact .inr (.inl hnone)
    · exact .inr (.inr ⟨hq, rest, encode i, .notinit, rfl⟩)

/-! ### The statements -/

/-- Settles O25: by `step_faults` the step drops a request, and neither the acceptance nor the fault writes
anything but a bit and the trace. -/
theorem faultedRequestIsDropped : Obligations.FaultedRequestIsDropped := by
  unfold Obligations.FaultedRequestIsDropped
  intro s t es k h htrace hk
  rcases step_faults h with ⟨-, rfl⟩ | ⟨-, -, es', htrace', hnone⟩ | ⟨hq, port, req, k', rfl⟩
  · have hes : es = [.reset] := List.append_cancel_left (htrace.symm.trans (by simp [State.trace]))
    simp [hes] at hk
  · obtain rfl : es = es' := List.append_cancel_left (htrace.symm.trans htrace')
    exact absurd hk (hnone k)
  · simp [hq]

/-- Settles O26: `step_faults` for the bits, and `step_lineWrites` for the trace. -/
theorem faultBitsAreSticky : Obligations.FaultBitsAreSticky := by
  unfold Obligations.FaultBitsAreSticky
  intro s t h
  refine ⟨fun hm => ?_, fun hm => ?_, ?_⟩
  · rcases step_faults h with ⟨hreset, -⟩ | ⟨hi, hn, -⟩ | ⟨-, port, req, k, rfl⟩
    · exact absurd hreset hm
    · exact ⟨hi.trans, hn.trans⟩
    · exact raiseFault_keeps_faultBits ({ afterTurnTaken s with port := port }.emit (.accept req)) k
  · rw [eq_blockReset_of_step hm h]
    exact ⟨blockReset_fIllreq _, blockReset_fNotinit _⟩
  · obtain ⟨es, htrace, -⟩ := step_lineWrites h
    exact ⟨es, htrace⟩

/-- Settles O7: the two cases of `tick_cases`. -/
theorem tickCountsDown : Obligations.TickCountsDown := by
  unfold Obligations.TickCountsDown
  intro s
  have hleft : 0 < s.dly.toNat ↔ s.dly ≠ 0 := by bv_omega
  rw [turn_tickSource, hleft]
  rcases tick_cases s with ⟨e, hidle⟩ | ⟨hw, hd, e⟩
  · exact ⟨fun hw hd => absurd ⟨hw, hd⟩ hidle, fun _ => congrArg _ e⟩
  · exact ⟨fun _ _ => ⟨_, rfl, tick_dly_toNat hw hd, by simp [e, State.trace], by rw [e]⟩,
      fun hidle => absurd ⟨hw, hd⟩ hidle⟩

/-- Settles O24: `exec_request_of_uninit` is the next state. -/
theorem requestBeforeInitRaisesNotinit : Obligations.RequestBeforeInitRaisesNotinit := by
  unfold Obligations.RequestBeforeInitRaisesNotinit
  intro s i hq hp hi hn
  exact ⟨_, exec_request_of_uninit hi hn hq hp, by simp [State.trace], rfl⟩

end Sys2Proof.Machine
end

section
/-! SUPPORT. The obligations of `70_reset_and_hazards.md`: what Reset writes, and what no step writes. -/

namespace Sys2Proof.Machine

/-- The reset input's turn is Reset, from every state (rule R301). -/
theorem turn_resetInput (s : State) : turn .resetInput s = .next (blockReset s) := rfl

/-- Reset appends its own event to the trace and nothing else (rule R301). -/
@[simp] theorem blockReset_trace (s : State) : (blockReset s).trace = s.trace ++ [.reset] := by
  simp [State.trace]

/-- Settles O30: `step_cfg` for the configuration, which holds the ROM that is read. -/
theorem configurationIsConstant : Obligations.ConfigurationIsConstant := by
  unfold Obligations.ConfigurationIsConstant
  intro s t h
  have hcfg : t.cfg = s.cfg := step_cfg h
  exact ⟨hcfg, State.memRead_congr hcfg⟩

/-- Settles O2: the next state is `blockReset s`, of which the rules about Reset say each field. -/
theorem resetStepRestoresResetValues : Obligations.ResetStepRestoresResetValues := by
  unfold Obligations.ResetStepRestoresResetValues
  refine ⟨resetWith_trace, fun s => ⟨blockReset s, turn_resetInput s, ?_⟩⟩
  simp [Lines.reset]

end Sys2Proof.Machine
end

section
/-! SUPPORT. The obligations about the invariant of the machine (`Safety.lean`): it holds after reset, every
step keeps it, and what it says of `PS` and of the idle bus. -/

namespace Sys2Proof.Machine

/-! ### PS and the pending EndInit -/

/-- What `PS` says of the pending micro-ops: nothing is pending in UNINIT, EndInit is the last in
INITIALIZING, and none is pending in READY (rules R102, R112 and R160). -/
def PhaseInv (p : ProtocolState) (q : List MicroOp) : Prop :=
  match p with
  | .uninit => q = []
  | .initializing => ∃ ops, q = ops ++ [.endInit] ∧ MicroOp.endInit ∉ ops
  | .ready => MicroOp.endInit ∉ q

theorem MachineInv.phase {s : State} (h : MachineInv s) : PhaseInv s.ps s.q := by
  cases hp : s.ps with
  | uninit => exact h.uninitIdle hp
  | initializing => exact h.initializing.mp hp
  | ready => exact h.ready hp

section
variable {p : ProtocolState} {op : MicroOp} {q : List MicroOp}

theorem PhaseInv.uninitIdle (h : PhaseInv p q) (hp : p = .uninit) : q = [] := by
  subst hp
  exact h

theorem PhaseInv.initializing_iff (h : PhaseInv p q) :
    p = .initializing ↔ ∃ ops, q = ops ++ [.endInit] ∧ MicroOp.endInit ∉ ops := by
  refine ⟨fun hp => by subst hp; exact h, fun ⟨ops, hq, _⟩ => ?_⟩
  subst hq
  cases p with
  | uninit => exact absurd h (by simp [PhaseInv])
  | initializing => rfl
  | ready => exact absurd h (by simp [PhaseInv])

theorem PhaseInv.ready (h : PhaseInv p q) (hp : p = .ready) : MicroOp.endInit ∉ q := by
  subst hp
  exact h

/-- A micro-op other than EndInit leaves the queue without a change of `PS`. -/
theorem PhaseInv.tail (h : PhaseInv p (op :: q)) (hop : op ≠ .endInit) : PhaseInv p q := by
  cases p with
  | uninit => exact absurd h (List.cons_ne_nil op q)
  | initializing =>
    obtain ⟨ops, hq, hnot⟩ := h
    cases ops with
    | nil => exact absurd (List.cons.inj hq).1 hop
    | cons op' ops => exact ⟨ops, (List.cons.inj hq).2, fun hm => hnot (List.mem_cons_of_mem _ hm)⟩
  | ready => exact fun hm => h (List.mem_cons_of_mem _ hm)

/-- EndInit is performed in INITIALIZING only, and nothing follows it (rules R108 and R112). -/
theorem PhaseInv.of_endInit (h : PhaseInv p (.endInit :: q)) : p = .initializing ∧ q = [] := by
  cases p with
  | uninit => exact absurd h (List.cons_ne_nil _ _)
  | initializing =>
    obtain ⟨ops, hq, hnot⟩ := h
    cases ops with
    | nil => exact ⟨rfl, (List.cons.inj hq).2⟩
    | cons op ops => exact absurd (List.cons.inj hq).1 (fun he => hnot (he ▸ List.mem_cons_self))
  | ready => exact absurd List.mem_cons_self h

end

/-- Outside a wait the invariant is what it says of the viewport, the lines, the phase and the ROM. -/
theorem machineInv_outside_wait {s : State} (hviewport : ViewportInv s)
    (hidle : (linesAfter s.q s.lines).scl = false ∧ (linesAfter s.q s.lines).csN = true)
    (hreset : s.cfg.hasRst = false → (∀ b, MicroOp.setLine .lcdRst b ∉ s.q) ∧ s.lines.lcdRst = true)
    (hw : s.wact = false) (hdly : s.dly = 0) (hphase : PhaseInv s.ps s.q) (hrom : s.cfg.rom.wf = true) :
    MachineInv s where
  viewport := hviewport
  endsIdle := hidle
  noResetLine := hreset
  waiting := fun hw' => absurd (hw.symm.trans hw') Bool.false_ne_true
  notWaiting := fun _ => hdly
  uninitIdle := hphase.uninitIdle
  initializing := hphase.initializing_iff
  ready := hphase.ready
  rom := hrom

theorem MachineInv.idle_ps_ne_initializing {s : State} (h : MachineInv s) (hq : s.q = []) :
    s.ps ≠ .initializing := by
  intro hp
  obtain ⟨ops, hops, -⟩ := h.initializing.mp hp
  exact absurd (hq.symm.trans hops) (by simp)

/-! ### After reset -/

theorem machineInv_resetWith {c : Config} (hrom : c.rom.wf = true) : MachineInv (State.resetWith c) :=
  machineInv_outside_wait (viewportInv_resetWith c) ⟨rfl, rfl⟩ (fun _ => ⟨fun _ => List.not_mem_nil, rfl⟩)
    rfl rfl rfl hrom

/-- Reset restores the invariant (rule R301). -/
theorem blockReset_machineInv {s : State} (hrom : s.cfg.rom.wf = true) : MachineInv (blockReset s) :=
  { machineInv_resetWith hrom with }

/-- Settles O34: each invariant is read off the reset values. -/
theorem invariantHoldsAtReset : Obligations.InvariantHoldsAtReset :=
  fun _ hrom => ⟨machineInv_resetWith hrom, rfl, rfl, rfl⟩

/-- Settles O33: performing an empty queue leaves the lines as they are. -/
theorem idleBusLevels : Obligations.IdleBusLevels := by
  unfold Obligations.IdleBusLevels
  intro s hinv hq
  simpa only [hq, linesAfter] using hinv.endsIdle

/-! ### The lines that the receiver sees -/

theorem Receiver.sample_lines (r : Receiver) (b : Bool) : (r.sample b).lines = r.lines := by
  rw [Receiver.sample]
  split
  · split <;> rfl
  · rfl

/-- A line write is a line write at the receiver too, whether or not it samples (rule R141). -/
theorem Receiver.observe_lineWrite_lines (e : Edge) (r : Receiver) (l : Line) (b : Bool) :
    (r.observe e (.lineWrite l b)).lines = r.lines.set l b := by
  simp only [Receiver.observe]
  split
  · exact Receiver.sample_lines _ _
  · split <;> rfl

theorem Receiver.watch_wait (e : Edge) (r : Receiver) (n : WaitMs) : r.watch e [.wait n] = r := by
  simpa [Receiver.watch, runEvents, opEvents, Receiver.observe] using observe_waitTail e n.val r

/-- Watching micro-ops, the receiver ends with the levels that they leave on the lines. -/
theorem Receiver.watch_lines (e : Edge) (r : Receiver) (ops : List MicroOp) :
    (r.watch e ops).lines = linesAfter ops r.lines := by
  induction ops generalizing r with
  | nil => rfl
  | cons op ops ih =>
    have hcons : r.watch e (op :: ops) = (r.watch e [op]).watch e ops := Receiver.watch_append e r [op] ops
    rw [hcons, ih]
    cases op with
    | setLine l b => exact congrArg (linesAfter ops) (Receiver.observe_lineWrite_lines e r l b)
    | wait n =>
      rw [Receiver.watch_wait]
      rfl
    | endInit => rfl

/-- Micro-ops that bring a receiver from rest to rest leave an idle bus idle. -/
theorem EdgeFree.linesAfter_idle {ops : List MicroOp} (h : EdgeFree ops) {l : Lines}
    (hscl : l.scl = false) (hcs : l.csN = true) :
    (linesAfter ops l).scl = false ∧ (linesAfter ops l).csN = true := by
  have hrest := (h ⟨l, [], []⟩ ⟨rfl, hcs, hscl⟩).2
  rw [← Receiver.watch_lines .rising ⟨l, [], []⟩ ops]
  exact ⟨hrest.scl, hrest.csN⟩

/-! ### The shape of an expansion -/

/-- The expansion of a request: frames, or for INIT the reset pulse, the table and EndInit (rule R103). -/
theorem expansionOf_cases {c : Config} {i : Instr} {ops : List MicroOp} (h : ExpansionOf c i ops) :
    (i ≠ .init ∧ ops = (busFrames c i).flatMap fun f => frame f.dc f.v) ∨
    (i = .init ∧ ∃ table, (∀ op ∈ table, op.inTable = true) ∧
      ops = resetPulse c.toParams ++ table ++ [.endInit]) := by
  cases i with
  | init => exact .inr ⟨rfl, h⟩
  | _ => exact .inl ⟨nofun, h⟩

theorem inTable_of_mem_frames {fs : List BusFrame} {op : MicroOp}
    (h : op ∈ fs.flatMap fun f => frame f.dc f.v) : op.inTable = true := by
  obtain ⟨f, -, hop⟩ := List.mem_flatMap.mp h
  exact inTable_of_mem_frame hop

theorem endInit_not_mem_of_inTable {ops : List MicroOp} (h : ∀ op ∈ ops, op.inTable = true) :
    MicroOp.endInit ∉ ops :=
  fun hm => absurd (h _ hm) Bool.false_ne_true

theorem lcdRst_not_mem_of_inTable {ops : List MicroOp} (h : ∀ op ∈ ops, op.inTable = true) (b : Bool) :
    MicroOp.setLine .lcdRst b ∉ ops :=
  fun hm => absurd (h _ hm) Bool.false_ne_true

theorem endInit_not_mem_resetPulse (p : Params) : MicroOp.endInit ∉ resetPulse p := by
  rw [resetPulse]
  split <;> simp

/-- Without a reset line no expansion writes it (rules R22 and R161). -/
theorem lcdRst_not_mem_expansion {c : Config} {i : Instr} {ops : List MicroOp} (h : ExpansionOf c i ops)
    (hrst : c.hasRst = false) (b : Bool) : MicroOp.setLine .lcdRst b ∉ ops := by
  rcases expansionOf_cases h with ⟨-, rfl⟩ | ⟨-, table, htable, rfl⟩
  · exact lcdRst_not_mem_of_inTable (fun _ => inTable_of_mem_frames) b
  · simp [resetPulse, hrst, lcdRst_not_mem_of_inTable htable b]

/-- An expansion leaves EndInit pending exactly for INIT (rule R160). -/
theorem phaseInv_expansion {c : Config} {i : Instr} {ops : List MicroOp} {p : ProtocolState}
    (h : ExpansionOf c i ops) (hi : i = .init ∨ p = .ready) : PhaseInv (psAfterAccept i p) ops := by
  rcases expansionOf_cases h with ⟨hn, rfl⟩ | ⟨rfl, table, htable, rfl⟩
  · obtain rfl : p = .ready := hi.resolve_left hn
    have hps : psAfterAccept i .ready = .ready := by
      cases i with
      | init => exact absurd rfl hn
      | _ => rfl
    rw [hps]
    exact endInit_not_mem_of_inTable fun _ => inTable_of_mem_frames
  · refine ⟨resetPulse c.toParams ++ table, rfl, fun hm => ?_⟩
    rcases List.mem_append.mp hm with hm | hm
    · exact endInit_not_mem_resetPulse _ hm
    · exact endInit_not_mem_of_inTable htable hm

/-! ### Every step keeps the invariant -/

/-- A tick counts down a wait that has begun, and touches nothing else (rule R281). -/
theorem tick_machineInv {s : State} (h : MachineInv s) : MachineInv (tick s) := by
  rcases tick_cases s with ⟨e, -⟩ | ⟨hw, hd, e⟩
  · rwa [e]
  · have hdly := tick_dly_toNat hw hd
    rw [e] at hdly ⊢
    refine { h with
      waiting := fun _ => ?_
      notWaiting := fun hw' => absurd (hw'.symm.trans hw) Bool.false_ne_true }
    obtain ⟨n, ops, hq, hle⟩ := h.waiting hw
    exact ⟨n, ops, hq, by rw [hdly]; omega⟩

/-- The queue without its head meets what the invariant asks of the reset line. -/
theorem MachineInv.noResetLine_tail {s : State} {op : MicroOp} {ops : List MicroOp} (h : MachineInv s)
    (hq : s.q = op :: ops) (hrst : s.cfg.hasRst = false) (b : Bool) :
    MicroOp.setLine .lcdRst b ∉ ops := by
  intro hm
  exact (h.noResetLine hrst).1 b (by rw [hq]; exact List.mem_cons_of_mem _ hm)

/-- Perform takes the head off the queue and does what it says, so what the queue will leave stays the
same (rules R104 to R108). -/
theorem perform_machineInv {s : State} (h : MachineInv s) : MachineInv (perform s) := by
  have hphase := h.phase
  have hidle := h.endsIdle
  rcases perform_cases s with ⟨e, -⟩ | ⟨l, b, ops, hq, e⟩ | ⟨n, ops, hq, hw, e⟩ |
    ⟨n, ops, hq, hw, hd, e⟩ | ⟨ops, hq, e⟩ <;> rw [e]
  · exact h
  · have hw : s.wact = false := h.wact_eq_false (by simp [hq])
    rw [hq] at hphase hidle
    refine machineInv_outside_wait h.viewport hidle (fun hrst => ⟨h.noResetLine_tail hq hrst, ?_⟩) hw
      (h.notWaiting hw) (hphase.tail (by simp)) h.rom
    obtain ⟨hnot, hlevel⟩ := h.noResetLine hrst
    cases l with
    | lcdRst => exact absurd (by rw [hq]; exact List.mem_cons_self) (hnot b)
    | _ => exact hlevel
  · exact { h with
      waiting := fun _ => ⟨n, ops, hq, (toNat_ofNat_waitMs n).le⟩
      notWaiting := nofun }
  · rw [hq] at hphase hidle
    exact machineInv_outside_wait h.viewport hidle
      (fun hrst => ⟨h.noResetLine_tail hq hrst, (h.noResetLine hrst).2⟩) rfl hd (hphase.tail (by simp)) h.rom
  · have hw : s.wact = false := h.wact_eq_false (by simp [hq])
    rw [hq] at hphase hidle
    obtain ⟨-, rfl⟩ := hphase.of_endInit
    exact machineInv_outside_wait h.viewport hidle
      (fun hrst => ⟨h.noResetLine_tail hq hrst, (h.noResetLine hrst).2⟩) hw (h.notWaiting hw)
      List.not_mem_nil h.rom

/-- A request keeps the invariant: what it puts in an idle block's queue leaves the bus idle and ends as
`PS` says (rules R102 and R103). -/
theorem exec_request_machineInv {i : Instr} {s t : State} (hi : i.isRequest = true)
    (he : exec i s = .next t) (h : MachineInv s) : MachineInv t := by
  rcases exec_request_cases hi he with ⟨-, rfl⟩ | ⟨-, -, -, rfl⟩ | ⟨hq, hacc, ops, tp, -, hops, rfl⟩
  · exact h
  · exact { h with }
  · have hw : s.wact = false := h.wact_eq_false_of_idle hq
    obtain ⟨hscl, hcs⟩ := idleBusLevels s h hq
    have hready : i = .init ∨ s.ps = .ready := by
      cases hps : s.ps with
      | uninit => exact .inl (hacc.resolve_left (not_not.mpr hps))
      | initializing => exact absurd hps (h.idle_ps_ne_initializing hq)
      | ready => exact .inr rfl
    have hviewport : ViewportInv (accepted i ops tp s) := by
      rcases exec_request_viewport hi he with ⟨r, -, -, hsize⟩ | ⟨hr, hvw, hvh⟩
      · exact (viewportInv_iff _).mpr hsize
      · simpa only [ViewportInv, hr, hvw, hvh] using h.viewport
    exact machineInv_outside_wait hviewport
      ((exec_request_edgeFree hi hq he).linesAfter_idle hscl hcs)
      (fun hrst => ⟨lcdRst_not_mem_expansion hops hrst, (h.noResetLine hrst).2⟩) hw (h.notWaiting hw)
      (phaseInv_expansion hops hready) h.rom

theorem step_machineInv {s t : State} (h : MachineInv s) (hstep : step s = .next t) : MachineInv t := by
  have h' := h.afterTurnTaken
  rcases step_cases hstep with ⟨-, rfl⟩ | ⟨-, rfl⟩ | ⟨-, rfl⟩ | ⟨-, -, rfl⟩ | ⟨-, -, port, calls, rfl⟩ |
    ⟨-, -, b, port, rfl⟩ | ⟨-, -, i, rest, -, hi, he⟩
  · exact blockReset_machineInv h'.rom
  · exact tick_machineInv h'
  · exact perform_machineInv h'
  · exact h'
  · exact { h' with }
  · exact { h' with }
  · exact exec_request_machineInv hi he { h' with }

/-- Settles O35: `step_machineInv`, agent by agent. -/
theorem everyStepKeepsInvariant : Obligations.EveryStepKeepsInvariant :=
  fun _ _ => step_machineInv

/-! ### The transitions of PS -/

/-- A request writes `PS` only when it is an accepted INIT (rule R112). -/
theorem exec_request_ps {i : Instr} {s t : State} (hi : i.isRequest = true) (he : exec i s = .next t) :
    (i ≠ .init → t.ps = s.ps) ∧ (i = .init → s.q = [] → t.ps = .initializing) := by
  rcases exec_request_cases hi he with ⟨hbusy, rfl⟩ | ⟨-, -, hn, rfl⟩ | ⟨hq, hacc, ops, tp, -, hops, rfl⟩
  · exact ⟨fun _ => rfl, fun _ hq => absurd hq hbusy⟩
  · exact ⟨fun _ => rfl, fun hinit => absurd hinit hn⟩
  · cases i with
    | init => exact ⟨fun hn => absurd rfl hn, fun _ _ => rfl⟩
    | _ => exact ⟨fun _ => rfl, nofun⟩

/-- Perform writes `PS` only for an EndInit (rule R108). -/
theorem perform_ps {s : State} (hq : s.q.head? ≠ some .endInit) : (perform s).ps = s.ps := by
  rcases perform_cases s with ⟨e, -⟩ | ⟨l, b, ops, -, e⟩ | ⟨n, ops, -, -, e⟩ | ⟨n, ops, -, -, -, e⟩ |
    ⟨ops, hend, -⟩
  case inr.inr.inr.inr => exact absurd (by rw [hend]; rfl) hq
  all_goals rw [e]

/-- No step but Reset, the acceptance of INIT and the Perform of EndInit writes `PS` (rule R112). -/
theorem step_ps_writers {s t : State} (h : step s = .next t) :
    t.ps = s.ps ∨ mover s = .resetInput ∨ Offers s .init ∨
      (mover s = .block ∧ s.q.head? = some .endInit) := by
  rcases step_cases h with ⟨hm, -⟩ | ⟨-, rfl⟩ | ⟨hm, rfl⟩ | ⟨-, -, rfl⟩ | ⟨-, -, port, calls, rfl⟩ |
    ⟨-, -, b, port, rfl⟩ | ⟨hm, hq, i, rest, hd, hi, he⟩
  case inl => exact .inr (.inl hm)
  case inr.inr.inl =>
    by_cases hend : s.q.head? = some .endInit
    · exact .inr (.inr (.inr ⟨hm, hend⟩))
    · exact .inl (perform_ps (s := afterTurnTaken s) hend)
  case inr.inr.inr.inr.inr.inr =>
    by_cases hinit : i = .init
    · subst hinit
      exact .inr (.inr (.inl ⟨hm, hq, rest, hd⟩))
    · exact .inl ((exec_request_ps hi he).1 hinit)
  all_goals exact .inl (by simp)

/-- The step of the block is Perform (rule R100). -/
theorem eq_perform_of_step {s t : State} (hm : mover s = .block) (h : step s = .next t) :
    t = perform (afterTurnTaken s) := by
  rw [step_eq, hm] at h
  exact (Host.Outcome.next.inj h).symm

/-- Settles O31: each of the three transitions, and `step_ps_writers` for all other steps. -/
theorem protocolStateTransitions : Obligations.ProtocolStateTransitions := by
  unfold Obligations.ProtocolStateTransitions
  intro s t hinv h
  refine ⟨fun hm => ?_, fun ho => ?_, fun hm hend => ?_, fun hreset hinit hend => ?_⟩
  · rw [eq_blockReset_of_step hm h, blockReset_ps]
  · obtain ⟨hi, rest, -, hstep⟩ := step_of_offers ho
    exact (exec_request_ps hi (hstep.symm.trans h)).2 rfl ho.2.1
  · obtain ⟨ops, hq⟩ := List.head?_eq_some_iff.mp hend
    have hphase := hinv.phase
    rw [hq] at hphase
    have hperform : perform (afterTurnTaken s) = _ := perform_of_endInit (s := afterTurnTaken s) hq
    refine ⟨hphase.of_endInit.1, ?_⟩
    rw [eq_perform_of_step hm h, hperform]
    rfl
  · exact (step_ps_writers h).resolve_right fun hwriter =>
      hwriter.elim hreset fun hwriter => hwriter.elim hinit hend

end Sys2Proof.Machine
end

section
/-! SUPPORT. The obligations of `30_encoding.md` about the two directions of the encoding and the assembly of
requests. -/

namespace Sys2Proof

/-! ### Decoding and encoding -/

/-- A request is read back from its own bytes, whatever follows them (rules R78 and R79). -/
theorem decodeRequest_encode {i : Instr} (hi : i.isRequest = true) (rest : List Byte) :
    decodeRequest (encode i ++ rest) = .ok (i, rest) := by
  cases i with
  | wrpix c => exact congrArg (fun c' => Except.ok (Instr.wrpix c', rest)) (Machine.colorBytes_append c)
  | initrec cmd args => exact absurd hi Bool.false_ne_true
  | initrecD cmd args d => exact absurd hi Bool.false_ne_true
  | _ => rfl

/-- A record has an encoding when its arguments can be counted (rule R74). -/
theorem toInstr_wf_iff (r : Record) : r.toInstr.wf = true ↔ r.args.length ≤ 127 := by
  obtain ⟨cmd, args, delay⟩ := r
  cases delay <;> exact decide_eq_true_iff

/-- The bytes of a record, with its delay byte where it has one (rule R73). -/
theorem encode_toInstr (r : Record) :
    encode r.toInstr = r.cmd :: argcByte r.delay.isSome r.args.length :: (r.args ++ r.delay.toList) := by
  obtain ⟨cmd, args, delay⟩ := r
  cases delay <;> simp [Record.toInstr, encode]

theorem isRequest_wf {i : Instr} (hi : i.isRequest = true) : i.wf = true := by
  cases i with
  | initrec cmd args => exact absurd hi Bool.false_ne_true
  | initrecD cmd args d => exact absurd hi Bool.false_ne_true
  | _ => rfl

/-- Every record's reading: it is well-formed, and the string begins with the record's own bytes. -/
theorem eq_encode_append_of_decodeRecord {bs rest : List Byte} {r : Record}
    (h : decodeRecord bs = .ok (r, rest)) :
    r.args.length ≤ 127 ∧ bs = encode r.toInstr ++ rest := by
  obtain ⟨argc, rfl, hcount, hflag⟩ := decodeRecord_ok h
  refine ⟨hcount ▸ argcCount_le argc, ?_⟩
  rw [encode_toInstr, hcount, hflag, argcByte_argc]
  simp

end Sys2Proof

namespace Sys2Proof.Machine

/-- Settles O51: `decodeRequest_encode` and `decodeRecord_encode`. -/
theorem decodeOfEncodeIsIdentity : Obligations.DecodeOfEncodeIsIdentity := by
  unfold Obligations.DecodeOfEncodeIsIdentity
  exact ⟨fun _ rest hi => decodeRequest_encode hi rest,
    fun r rest hwf => decodeRecord_encode ((toInstr_wf_iff r).mp hwf) rest⟩

/-- Settles O52: what each decoder reads are the instruction's own bytes. -/
theorem encodeOfDecodeIsIdentity : Obligations.EncodeOfDecodeIsIdentity := by
  unfold Obligations.EncodeOfDecodeIsIdentity
  refine ⟨fun bs i rest h => ?_, fun bs r rest h => ?_⟩
  · have hi := isRequest_of_decodeRequest h
    exact ⟨hi, isRequest_wf hi, (eq_encode_append_of_decodeRequest h).symm⟩
  · obtain ⟨hlen, hbytes⟩ := eq_encode_append_of_decodeRecord h
    exact ⟨(toInstr_wf_iff r).mpr hlen, hbytes.symm⟩

/-- Settles O50: each word is the encoding of its instruction, and `decodeRequest_encode` and
`decodeRecord_encode` read it back. -/
theorem wordsDecodeToTheirInstructions : Obligations.WordsDecodeToTheirInstructions :=
  ⟨decodeRequest_encode (i := .wrcmd 0x2A) rfl [], decodeRequest_encode (i := .wrdata 0xA5) rfl [],
    decodeRequest_encode (i := .wrpix 0xF800) rfl [],
    decodeRequest_encode (i := .setwin 0x03 0x04 0x05 0x06) rfl [],
    decodeRequest_encode (i := .setrot 0x05) rfl [], decodeRequest_encode (i := .init) rfl [],
    decodeRecord_encode (r := ⟨0x3A, [0x05], none⟩) (by decide) [],
    decodeRecord_encode (r := ⟨0xB1, [0x01, 0x02], some 0x00⟩) (by decide) []⟩

/-! ### The assembly of requests -/

/-- What an operand assembles to when it fits a byte, and that it is an error when it does not (rule R85). -/
theorem map_byteOperand {α : Type} (n : Nat) (f : Byte → α) :
    (byteOperand n).map f = if n < 256 then some (f (BitVec.ofNat 8 n)) else none := by
  rw [byteOperand]
  split <;> rfl

/-- The two bytes of a colour operand (rules R79 and R85). -/
theorem encode_wrpix_ofNat (n : Nat) :
    encode (.wrpix (BitVec.ofNat 16 n)) = [0x03, BitVec.ofNat 8 (n / 256), BitVec.ofNat 8 n] := by
  have hhi : (BitVec.ofNat 16 n).extractLsb' 8 8 = BitVec.ofNat 8 (n / 256) := by
    apply BitVec.eq_of_toNat_eq
    simp [BitVec.extractLsb'_toNat, Nat.shiftRight_eq_div_pow]
    omega
  have hlo : (BitVec.ofNat 16 n).extractLsb' 0 8 = BitVec.ofNat 8 n := by
    apply BitVec.eq_of_toNat_eq
    simp [BitVec.extractLsb'_toNat]
  rw [encode, hhi, hlo]

/-- SETWIN assembles when each of its four operands fits a byte (rule R85). -/
theorem assembleRequest_setwin (x0 y0 x1 y1 : Nat) :
    assembleRequest ['s', 'e', 't', 'w', 'i', 'n'] [x0, y0, x1, y1] =
      if x0 < 256 ∧ y0 < 256 ∧ x1 < 256 ∧ y1 < 256 then
        some [0x04, BitVec.ofNat 8 x0, BitVec.ofNat 8 y0, BitVec.ofNat 8 x1, BitVec.ofNat 8 y1]
      else none := by
  by_cases h0 : x0 < 256
  case neg => simp [assembleRequest, byteOperand, h0]
  by_cases h1 : y0 < 256
  case neg => simp [assembleRequest, byteOperand, h1]
  by_cases h2 : x1 < 256
  case neg => simp [assembleRequest, byteOperand, h2]
  by_cases h3 : y1 < 256
  case neg => simp [assembleRequest, byteOperand, h3]
  simp [assembleRequest, byteOperand, h0, h1, h2, h3, encode]

/-- The mnemonics that take one operand. -/
def OneOperand (m : List Char) : Prop :=
  m = ['w', 'r', 'c', 'm', 'd'] ∨ m = ['w', 'r', 'd', 'a', 't', 'a'] ∨ m = ['w', 'r', 'p', 'i', 'x'] ∨
  m = ['s', 'e', 't', 'r', 'o', 't'] ∨ m = ['.', 'b', 'y', 't', 'e']

/-- The operands that a mnemonic takes (rule R85). -/
def TakesOperands (m : List Char) (ops : List Nat) : Prop :=
  (∃ n, ops = [n] ∧ OneOperand m) ∨
  (∃ x0 y0 x1 y1, ops = [x0, y0, x1, y1] ∧ m = ['s', 'e', 't', 'w', 'i', 'n']) ∨
  (ops = [] ∧ m = ['i', 'n', 'i', 't'])

/-- Whatever assembles is a request's encoding or the byte of a `.byte` line, from as many operands as the
mnemonic takes (rule R85). -/
theorem assembleRequest_some {m : List Char} {ops : List Nat} {bs : List Byte}
    (h : assembleRequest m ops = some bs) :
    ((∃ i, i.isRequest = true ∧ bs = encode i) ∨ ∃ b, bs = [b] ∧ m = ['.', 'b', 'y', 't', 'e']) ∧
    TakesOperands m ops := by
  unfold assembleRequest at h
  repeat' split at h
  all_goals simp only [Option.map_eq_some_iff, Option.some.injEq, reduceCtorEq] at h
  all_goals subst_vars
  · obtain ⟨b, -, rfl⟩ := h
    exact ⟨.inl ⟨.wrcmd b, rfl, rfl⟩, .inl ⟨_, rfl, .inl rfl⟩⟩
  · obtain ⟨b, -, rfl⟩ := h
    exact ⟨.inl ⟨.wrdata b, rfl, rfl⟩, .inl ⟨_, rfl, .inr (.inl rfl)⟩⟩
  · obtain ⟨c, -, rfl⟩ := h
    exact ⟨.inl ⟨.wrpix c, rfl, rfl⟩, .inl ⟨_, rfl, .inr (.inr (.inl rfl))⟩⟩
  · exact ⟨.inl ⟨.setwin _ _ _ _, rfl, rfl⟩, .inr (.inl ⟨_, _, _, _, rfl, rfl⟩)⟩
  · obtain ⟨r, -, rfl⟩ := h
    exact ⟨.inl ⟨.setrot r, rfl, rfl⟩, .inl ⟨_, rfl, .inr (.inr (.inr (.inl rfl)))⟩⟩
  · exact ⟨.inl ⟨.init, rfl, rfl⟩, .inr (.inr ⟨rfl, rfl⟩)⟩
  · obtain ⟨b, -, rfl⟩ := h
    exact ⟨.inr ⟨b, rfl, rfl⟩, .inl ⟨_, rfl, .inr (.inr (.inr (.inr rfl)))⟩⟩

/-- Settles O54: the byte operands by `map_byteOperand`, the colour by `encode_wrpix_ofNat`, and
`assembleRequest_some` for what assembles at all. -/
theorem requestAssemblyChecksWidths : Obligations.RequestAssemblyChecksWidths := by
  unfold Obligations.RequestAssemblyChecksWidths
  refine ⟨fun n => ?_, fun n => map_byteOperand n fun b => encode (.wrcmd b),
    fun n => map_byteOperand n fun b => encode (.wrdata b),
    fun n => map_byteOperand n fun b => encode (.setrot b), assembleRequest_setwin, rfl,
    fun n => map_byteOperand n fun b => [b], fun m ops bs h => ?_⟩
  · rw [← encode_wrpix_ofNat]
    change (colorOperand n).map (fun c => encode (.wrpix c)) = _
    rw [colorOperand]
    split <;> rfl
  · obtain ⟨hbytes, hops⟩ := assembleRequest_some h
    refine ⟨hbytes.imp (fun ⟨i, hi, he⟩ => ⟨i, ?_⟩) id, hops⟩
    rw [he]
    simpa using decodeRequest_encode hi []

end Sys2Proof.Machine
end

section
/-! SUPPORT. The obligations about whose turn a step is (`40_sequencer.md` section 1) and about what the
requests and the table records leave unchanged (`41_frame.md`, `42_init.md`, `43_window.md`). -/

namespace Sys2Proof.Machine

/-! ### Turns -/

/-- While `BUSY = 1` every request is held (rule R101). -/
theorem exec_request_of_busy {i : Instr} {s : State} (hi : i.isRequest = true) (hq : s.q ≠ []) :
    exec i s = .next s := by
  by_cases hinit : i = .init
  · subst hinit
    exact if_pos ((State.busy_eq_true_iff s).mpr hq)
  · obtain ⟨effect, hexec⟩ := exec_eq_acceptRequest hi hinit s
    rw [hexec, acceptRequest_of_busy hq]

/-- Settles O8: the host's turn passes, and every request is held. -/
theorem hostIsHeldWhileBusy : Obligations.HostIsHeldWhileBusy :=
  fun s hq => ⟨(turn_host s).trans (hostTurn_of_busy hq), fun _ hi => exec_request_of_busy hi hq⟩

/-- With an empty schedule a step is the turn of the fair agent (rule R115). -/
theorem step_of_fair {s : State} (hs : s.sched = []) : step s = agentTurn (fairAgent s) s := by
  simp only [step, takeStep, hs]

section
variable {s : State} (hs : s.sched = [])
include hs

theorem step_of_fair_idle (hq : s.q = []) : step s = hostTurn s := by
  have hfair : fairAgent s = .host := by simp [fairAgent, State.busy, hq]
  rw [step_of_fair hs, hfair]
  rfl

theorem step_of_fair_held (hq : s.q ≠ []) (hheld : s.held = true) : step s = .next (tick s) := by
  have hfair : fairAgent s = .tickSource := by simp [fairAgent, hq, hheld]
  rw [step_of_fair hs, hfair]
  rfl

theorem step_of_fair_busy (hq : s.q ≠ []) (hheld : s.held = false) : step s = .next (perform s) := by
  have hfair : fairAgent s = .block := by simp [fairAgent, hq, hheld]
  rw [step_of_fair hs, hfair]
  rfl

end

/-- In a quiescent state the host has nothing to offer and no call to take up (rule R111). -/
theorem hostTurn_of_quiescent {s : State} (h : Quiescent s) : hostTurn s = .next s := by
  obtain ⟨hq, hport, hcalls⟩ := h
  simp [hostTurn, State.busy, hq, offerNext, hport, decodeRequest, takeCall, hcalls]

/-- Settles O10: a scheduled turn by `turn_eq`, the fair ones by the agent that is fair. -/
theorem turnsGoByScheduleOrFairness : Obligations.TurnsGoByScheduleOrFairness := by
  unfold Obligations.TurnsGoByScheduleOrFairness
  exact ⟨fun s a => turn_eq a s, fun s hs => ⟨step_of_fair_idle hs, step_of_fair_held hs,
    step_of_fair_busy hs, fun hquiet =>
      (step_of_fair_idle hs hquiet.1).trans (hostTurn_of_quiescent hquiet)⟩⟩

/-- What the host offers, when the bytes at the port decode to a request, is executed (rule R101). -/
theorem offerNext_of_decodeRequest {s : State} {i : Instr} {rest : List Byte}
    (hd : decodeRequest s.port = .ok (i, rest)) : offerNext s = exec i { s with port := rest } := by
  simp only [offerNext, hd]

/-- Settles O11: the host's step offers what stands at the port. -/
theorem stepRunsDecodedRequest : Obligations.StepRunsDecodedRequest := by
  unfold Obligations.StepRunsDecodedRequest
  intro s i rest hm hq hd
  exact (step_of_host_idle hm hq).trans (offerNext_of_decodeRequest (s := afterTurnTaken s) hd)

/-! ### What the requests leave unchanged -/

section
variable {i : Instr} {s t : State} (hi : i.isRequest = true) (he : exec i s = .next t)
include hi he

/-- What no request writes: the lines, the wait, F_ILLREQ and what the environment has still to do. -/
theorem exec_request_frame :
    t.lines = s.lines ∧ t.dly = s.dly ∧ t.wact = s.wact ∧ t.port = s.port ∧ t.calls = s.calls ∧
    t.sched = s.sched ∧ t.fIllreq = s.fIllreq := by
  rcases exec_request_cases hi he with ⟨-, rfl⟩ | ⟨-, -, -, rfl⟩ | ⟨-, -, ops, tp, -, -, rfl⟩ <;>
    exact ⟨rfl, rfl, rfl, rfl, rfl, rfl, rfl⟩

theorem exec_request_tp (hn : i ≠ .init) : t.tp = s.tp := by
  rcases exec_request_cases hi he with ⟨-, rfl⟩ | ⟨-, -, -, rfl⟩ | ⟨-, -, ops, tp, htp, -, rfl⟩
  · rfl
  · rfl
  · exact htp hn

/-- Only a request that is dropped in UNINIT sets F_NOTINIT (rule R272). -/
theorem exec_request_fNotinit (hacc : s.ps ≠ .uninit ∨ i = .init) : t.fNotinit = s.fNotinit := by
  rcases exec_request_cases hi he with ⟨-, rfl⟩ | ⟨-, hp, hn, -⟩ | ⟨-, -, ops, tp, -, -, rfl⟩
  · rfl
  · exact absurd hacc (not_or.mpr ⟨not_not.mpr hp, hn⟩)
  · rfl

end

/-- Settles O21: `exec_request_frame`, and for each field that some request writes the lemma that says
which. -/
theorem requestsKeepTheRest : Obligations.RequestsKeepTheRest := by
  unfold Obligations.RequestsKeepTheRest
  intro i s t hi he
  obtain ⟨hlines, hdly, hwact, hport, hcalls, hsched, hillreq⟩ := exec_request_frame hi he
  have hcfg := exec_request_cfg hi he
  obtain ⟨es, htrace, -⟩ := exec_request_trace hi he
  refine ⟨hlines, hdly, hwact, hcfg, State.memRead_congr hcfg, hport, hcalls, hsched, hillreq, ⟨es, htrace⟩,
    fun hn => ?_, fun hn => ⟨(exec_request_ps hi he).1 hn, exec_request_tp hi he hn⟩,
    exec_request_fNotinit hi he⟩
  rcases exec_request_viewport hi he with ⟨r, hr, -⟩ | ⟨hr, hw, hh⟩
  · exact absurd hr (hn r)
  · exact ⟨hw, hh, hr⟩

/-! ### The table records -/

/-- A record's instruction is the interpreter's pass over the record (rules R165 and R166). -/
theorem exec_toInstr (r : Record) (s : State) : exec r.toInstr s = .next (runRecord r s) := by
  obtain ⟨cmd, args, delay⟩ := r
  cases delay <;> rfl

/-- Settles O22: a record extends the queue by micro-ops of the table and moves `TP` (`runRecord_eq`). -/
theorem recordsKeepTheRest : Obligations.RecordsKeepTheRest := by
  unfold Obligations.RecordsKeepTheRest
  intro r s t he
  rw [exec_toInstr] at he
  obtain rfl := Host.Outcome.next.inj he
  rw [runRecord_eq]
  have hops : ∀ op ∈ recordOps r, op.inTable = true := fun _ => inTable_of_mem_recordOps
  exact ⟨⟨recordOps r, rfl, endInit_not_mem_of_inTable hops, lcdRst_not_mem_of_inTable hops⟩,
    State.memRead_congr rfl⟩

/-- After a record what is left to read is what its reading left over (rule R164). -/
theorem bytesFrom_runRecord {s : State} {r : Record} {rest : List Byte} (hwf : s.cfg.rom.wf = true)
    (hd : decodeRecord (s.cfg.rom.bytesFrom s.tp) = .ok (r, rest)) :
    (runRecord r s).cfg.rom.bytesFrom (runRecord r s).tp = rest := by
  rw [runRecord_eq]
  have hrom := Memory.eq_ofBytes hwf
  rw [hrom, Memory.bytesFrom_ofBytes] at hd
  have hrest := drop_of_decodeRecord hd
  rw [List.drop_drop] at hrest
  change s.cfg.rom.bytesFrom _ = rest
  rw [hrom, Memory.bytesFrom_ofBytes, hrest]

/-- Settles O12: the interpreter fetches the record and runs it, which is its instruction
(`exec_toInstr`). -/
theorem interpreterRunsDecodedRecords : Obligations.InterpreterRunsDecodedRecords := by
  unfold Obligations.InterpreterRunsDecodedRecords
  intro s r rest k hd
  have hfetch : fetchRecord s = some r := fetchRecord_eq_some_iff.mpr ⟨rest, hd⟩
  exact ⟨runRecord r s, exec_toInstr r s, by simp only [runRecords, hfetch],
    fun hwf => bytesFrom_runRecord hwf hd⟩

end Sys2Proof.Machine
end

section
/-! SUPPORT. The obligations of `41_frame.md` about the serializer and about what the reference receiver
makes of whole runs. -/

namespace Sys2Proof.Machine

/-! ### The serializer -/

/-- Settles O39: the entries of the eight bits, each sent alike. -/
theorem sendByteIsMsbFirst : Obligations.SendByteIsMsbFirst := by
  unfold Obligations.SendByteIsMsbFirst
  intro v l
  refine ⟨rfl, fun j hj => ?_, rfl, rfl⟩
  interval_cases j <;> exact ⟨rfl, rfl, rfl⟩

/-! ### The receiver along a trace -/

/-- Settles O45: Reset is one event, which empties the buffer and keeps the frames. -/
theorem resetDropsPartialFrame : Obligations.ResetDropsPartialFrame :=
  fun es => receive_append .rising es [.reset]

/-- Micro-ops performed after a trace are watched by the receiver that the trace has left. -/
theorem receive_append_runEvents (e : Edge) (es : List Event) (ops : List MicroOp) :
    receive e (es ++ runEvents ops) = (receive e es).watch e ops := receive_append e es (runEvents ops)

/-- An event that is neither a Reset nor a line write is nothing to the receiver (rule R141). -/
theorem receive_append_silent {e : Edge} {es silent : List Event}
    (h : ∀ r, silent.foldl (Receiver.observe e) r = r) : receive e (es ++ silent) = receive e es := by
  rw [receive_append, h]

/-- In an idle block nothing is to come. -/
theorem eventsToCome_of_idle {s : State} (hq : s.q = []) : eventsToCome s = [] := by
  simp [eventsToCome, hq, runEvents]

/-- In step with an idle block, the receiver is at rest. -/
theorem ReceiverInSync.atRest {s : State} (h : ReceiverInSync s) (hinv : MachineInv s) (hq : s.q = []) :
    (receive .rising s.trace).AtRest := by
  obtain ⟨hlines, hbuf⟩ := h
  rw [eventsToCome_of_idle hq, List.append_nil] at hbuf
  obtain ⟨hscl, hcs⟩ := idleBusLevels s hinv hq
  exact ⟨hbuf, by rw [hlines, hcs], by rw [hlines, hscl]⟩

/-! ### Every step keeps the receiver in step -/

theorem blockReset_inSync (s : State) : ReceiverInSync (blockReset s) := by
  have hreceive := resetDropsPartialFrame s.trace
  rw [← blockReset_trace] at hreceive
  refine ⟨by rw [hreceive]; rfl, ?_⟩
  rw [eventsToCome_of_idle (blockReset_q s), List.append_nil, hreceive]

/-- A step of the block or of the tick source keeps the list of all events, so it is enough that the
receiver sees the lines change. -/
theorem ReceiverInSync.of_events {s t : State} (h : ReceiverInSync s)
    (hevents : t.trace ++ eventsToCome t = s.trace ++ eventsToCome s)
    (hlines : (receive .rising t.trace).lines = t.lines) : ReceiverInSync t :=
  ⟨hlines, hevents ▸ h.2⟩

theorem tick_inSync {s : State} (hinv : MachineInv s) (h : ReceiverInSync s) : ReceiverInSync (tick s) := by
  refine h.of_events (tick_trace_eventsToCome hinv) ?_
  rcases tick_cases s with ⟨e, -⟩ | ⟨-, -, e⟩ <;> rw [e]
  · exact h.1
  · have htrace : State.trace { s with dly := s.dly - 1, traceRev := .tick :: s.traceRev } =
        s.trace ++ [.tick] := State.trace_emit s .tick
    rw [htrace, receive_append_silent fun _ => rfl]
    exact h.1

/-- The lines after an event that Perform appends, at the block and at the receiver. -/
theorem receive_lines_of_lineWrite {s : State} (h : (receive .rising s.trace).lines = s.lines) (l : Line)
    (b : Bool) : (receive .rising (s.trace ++ [.lineWrite l b])).lines = s.lines.set l b := by
  rw [receive_append, ← h]
  exact Receiver.observe_lineWrite_lines .rising _ l b

theorem perform_inSync {s : State} (hinv : MachineInv s) (h : ReceiverInSync s) :
    ReceiverInSync (perform s) := by
  refine h.of_events (perform_trace_eventsToCome hinv) ?_
  have hsilent {e : Event} (he : ∀ r, Receiver.observe .rising r e = r) :
      (receive .rising (s.trace ++ [e])).lines = s.lines := by
    rw [receive_append_silent (silent := [e]) he, h.1]
  rcases perform_cases s with ⟨e, -⟩ | ⟨l, b, ops, -, e⟩ | ⟨n, ops, -, -, e⟩ | ⟨n, ops, -, -, -, e⟩ |
    ⟨ops, -, e⟩ <;> rw [e]
  · exact h.1
  · rw [← receive_lines_of_lineWrite h.1]
    simp [State.trace]
  · simpa [State.trace] using hsilent (e := .waitBegin n) fun _ => rfl
  · simpa [State.trace] using hsilent (e := .waitEnd) fun _ => rfl
  · simpa [State.trace] using hsilent (e := .initDone) fun _ => rfl

/-- The events of the host's step are nothing to the receiver, and what is in the queue after it brings the
receiver from rest to rest. -/
theorem ReceiverInSync.of_host {s t : State} {es : List Event} (h : ReceiverInSync s) (hinv : MachineInv s)
    (hq : s.q = []) (hlines : t.lines = s.lines) (hw : t.wact = false) (htrace : t.trace = s.trace ++ es)
    (hes : ∀ r, es.foldl (Receiver.observe .rising) r = r) (hops : EdgeFree t.q) : ReceiverInSync t := by
  have hreceive : receive .rising t.trace = receive .rising s.trace := by
    rw [htrace, receive_append_silent hes]
  refine ⟨by rw [hreceive, hlines, h.1], ?_⟩
  rw [eventsToCome_of_not_begun hw, receive_append_runEvents, hreceive]
  exact (hops _ (h.atRest hinv hq)).2.buf

/-- A request appends its acceptance, and a fault where it is dropped, which the receiver does not see. -/
theorem exec_request_silent {i : Instr} {s t : State} (hi : i.isRequest = true) (he : exec i s = .next t) :
    ∃ es, t.trace = s.trace ++ es ∧ ∀ e r, es.foldl (Receiver.observe e) r = r := by
  rcases exec_request_cases hi he with ⟨-, rfl⟩ | ⟨-, -, -, rfl⟩ | ⟨-, -, ops, tp, -, -, rfl⟩
  · exact ⟨[], by simp, fun _ _ => rfl⟩
  · exact ⟨[.accept (encode i), .fault .notinit], by simp [State.trace], fun _ _ => rfl⟩
  · exact ⟨[.accept (encode i)], by simp [State.trace, accepted], fun _ _ => rfl⟩

theorem exec_request_inSync {i : Instr} {s t : State} (hi : i.isRequest = true) (he : exec i s = .next t)
    (hq : s.q = []) (hinv : MachineInv s) (h : ReceiverInSync s) : ReceiverInSync t := by
  obtain ⟨hlines, -, hwact, -⟩ := exec_request_frame hi he
  obtain ⟨es, htrace, hes⟩ := exec_request_silent hi he
  exact h.of_host hinv hq hlines (hwact.trans (hinv.wact_eq_false_of_idle hq)) htrace (hes .rising)
    (exec_request_edgeFree hi hq he)

theorem step_inSync {s t : State} (hinv : MachineInv s) (h : ReceiverInSync s) (hstep : step s = .next t) :
    ReceiverInSync t := by
  have hinv' := hinv.afterTurnTaken
  rcases step_cases hstep with ⟨-, rfl⟩ | ⟨-, rfl⟩ | ⟨-, rfl⟩ | ⟨-, -, rfl⟩ | ⟨-, -, port, calls, rfl⟩ |
    ⟨-, hq, b, port, rfl⟩ | ⟨-, hq, i, rest, -, hi, he⟩
  · exact blockReset_inSync _
  · exact tick_inSync hinv' h
  · exact perform_inSync hinv' h
  · exact h
  · exact h
  · have hidle : EdgeFree s.q := by simpa only [hq] using edgeFree_nil
    exact h.of_host (es := [.accept [b], .fault .illreq]) hinv hq rfl (hinv.wact_eq_false_of_idle hq)
      (by simp [State.trace]) (fun _ => rfl) hidle
  · exact exec_request_inSync hi he hq { hinv' with } h

/-- Settles O43: `step_inSync`, agent by agent. -/
theorem receiverStaysInSync : Obligations.ReceiverStaysInSync :=
  fun _ _ => step_inSync

/-! ### The frames of a request -/

/-- From the records that the interpreter runs, the receiver recovers the frames of the bytes that it reads
(rule R143). -/
theorem runRecords_recovers {k : Nat} {s t : State} (hwf : s.cfg.rom.wf = true)
    (h : runRecords k s = some t) :
    ∃ ops, t.q = s.q ++ ops ∧ Recovers ops (tableBusFrames k (s.cfg.rom.bytesFrom s.tp)) := by
  induction k generalizing s with
  | zero =>
    obtain rfl : s = t := Option.some.inj h
    exact ⟨[], by simp, recovers_nil⟩
  | succ k ih =>
    rw [runRecords] at h
    split at h
    · exact nomatch h
    · next r hr =>
      obtain ⟨rest, hd⟩ := fetchRecord_eq_some_iff.mp hr
      have hcfg : (runRecord r s).cfg = s.cfg := by rw [runRecord_eq]
      obtain ⟨ops, hq, hops⟩ := ih (hcfg ▸ hwf) h
      rw [bytesFrom_runRecord hwf hd] at hops
      refine ⟨recordOps r ++ ops, by rw [hq, runRecord_eq, List.append_assoc], ?_⟩
      rw [tableBusFrames, hd]
      exact (recovers_recordOps r).append hops

/-- From the expansion of INIT the receiver recovers the frames of the table (rules R143 and R160). -/
theorem execInit_recovers {s t : State} (hq : s.q = []) (hwf : s.cfg.rom.wf = true)
    (h : execInit s = .next t) : Recovers t.q (busFrames s.cfg .init) := by
  have hidle : ¬ s.busy = true := by simp [hq]
  rw [execInit, if_neg hidle] at h
  split at h
  · exact nomatch h
  · next u hu =>
    obtain rfl := Host.Outcome.next.inj h
    rw [runTable] at hu
    split at hu
    · exact nomatch hu
    · next n hn =>
      obtain ⟨ops, hops, hrec⟩ := runRecords_recovers (by exact hwf) hu
      have hcount : s.cfg.rom.read 0 = some n := hn
      have hframes := ((recovers_resetPulse s.cfg.toParams).append hrec).append recovers_endInit
      simp only [busFrames, hcount, Option.getD_some, hops]
      simpa using hframes

/-- From the expansion of an accepted request the receiver recovers the request's frames (rule R143). -/
theorem exec_request_recovers {i : Instr} {s t : State} (hi : i.isRequest = true)
    (he : exec i s = .next t) (hwf : s.cfg.rom.wf = true) (hq : s.q = [])
    (hacc : s.ps ≠ .uninit ∨ i = .init) : Recovers t.q (busFrames s.cfg i) := by
  rcases exec_request_cases hi he with ⟨hbusy, -⟩ | ⟨-, hp, hn, -⟩ | ⟨-, -, ops, tp, -, hops, rfl⟩
  · exact absurd hq hbusy
  · exact absurd hacc (not_or.mpr ⟨not_not.mpr hp, hn⟩)
  · rcases expansionOf_cases hops with ⟨-, hframes⟩ | ⟨rfl, -⟩
    · change Recovers ops _
      rw [hframes]
      exact recovers_frames _
    · exact execInit_recovers hq hwf he

/-- Settles O41: the acceptance is nothing to the receiver, which is at rest and recovers the frames of the
expansion. -/
theorem framesAreRecoveredExactly : Obligations.FramesAreRecoveredExactly := by
  unfold Obligations.FramesAreRecoveredExactly
  intro s t i hinv hsync hq hi hacc he
  obtain ⟨es, htrace, hes⟩ := exec_request_silent hi he
  have hrec := exec_request_recovers hi he hinv.rom hq hacc
  rw [recoveredFrames, receive_append_runEvents, htrace, receive_append_silent (hes .rising)]
  exact (hrec _ (hsync.atRest hinv hq)).2

end Sys2Proof.Machine
end

section
/-! SUPPORT. The obligations about the well-formedness of the init table (`30_encoding.md` section 2,
`60_exceptions.md` section 1). -/

namespace Sys2Proof.Machine

/-! ### Bytes after the last record -/

/-- A record is read alike whatever follows the string. -/
theorem decodeRecord_append {bs rest : List Byte} {r : Record} (junk : List Byte)
    (h : decodeRecord bs = .ok (r, rest)) : decodeRecord (bs ++ junk) = .ok (r, rest ++ junk) := by
  obtain ⟨hlen, rfl⟩ := eq_encode_append_of_decodeRecord h
  rw [List.append_assoc]
  exact decodeRecord_encode hlen _

/-- The walk of rule R164 does not read beyond its last record. -/
theorem expandRecords_append {bs : List Byte} {k tp : Nat} {ops : List MicroOp} (junk : List Byte)
    (h : expandRecords (Memory.ofBytes bs) k tp = some ops) :
    expandRecords (Memory.ofBytes (bs ++ junk)) k tp = some ops := by
  induction k generalizing tp ops with
  | zero => exact h
  | succ k ih =>
    by_cases hr : ∃ r rest, decodeRecord (bs.drop tp) = .ok (r, rest)
    · obtain ⟨r, rest, hd⟩ := hr
      have htp : tp ≤ bs.length := by
        by_contra hlt
        rw [List.drop_eq_nil_of_le (by omega)] at hd
        exact nomatch hd
      have hd' : decodeRecord ((bs ++ junk).drop tp) = .ok (r, rest ++ junk) := by
        rw [List.drop_append_of_le_length htp]
        exact decodeRecord_append junk hd
      rw [expandRecords_succ k hd, Option.map_eq_some_iff] at h
      obtain ⟨ops', hops', rfl⟩ := h
      rw [expandRecords_succ k hd', ih hops', Option.map_some]
    · rw [expandRecords_succ_of_truncated k hr] at h
      exact nomatch h

/-- `TableExpand` does not read the bytes after the last record (rule R77). -/
theorem tableExpand_append {bs : List Byte} {ops : List MicroOp} (junk : List Byte)
    (h : tableExpand (Memory.ofBytes bs) = some ops) :
    tableExpand (Memory.ofBytes (bs ++ junk)) = some ops := by
  cases bs with
  | nil => exact nomatch h
  | cons n bs => exact expandRecords_append junk h

/-! ### The INIT of an ill-formed table -/

/-- Where the table does not expand the interpreter leaves the ROM. -/
theorem runTable_of_tableExpand_none {s : State} (hwf : s.cfg.rom.wf = true)
    (h : tableExpand s.cfg.rom = none) : runTable s = none := by
  have hq := runTable_q hwf
  rwa [h, Option.map_none, Option.map_eq_none_iff] at hq

/-- An idle block refuses INIT exactly when its table is not well-formed (log 8). -/
theorem execInit_refused_iff {s : State} (hq : s.q = []) (hwf : s.cfg.rom.wf = true) :
    execInit s = .refused .tableIllFormed ↔ romWellFormed s.cfg.rom = false := by
  rw [romWellFormed_eq_isSome hwf]
  cases htable : tableExpand s.cfg.rom with
  | none =>
    refine iff_of_true ?_ rfl
    have hidle : ¬ s.busy = true := by simp [hq]
    rw [execInit, if_neg hidle, runTable_of_tableExpand_none]
    · exact hwf
    · exact htable
  | some table =>
    obtain ⟨tp, hexec⟩ := execInit_of_tableExpand hq hwf htable
    rw [hexec]
    exact iff_of_false nofun nofun

/-- Settles O47: the two walks agree (`romWellFormed_eq_isSome`), neither reads beyond the last record
(`tableExpand_append`), and `execInit_refused_iff`. -/
theorem wellFormedTablesAreThoseThatExpand : Obligations.WellFormedTablesAreThoseThatExpand := by
  unfold Obligations.WellFormedTablesAreThoseThatExpand
  refine ⟨fun rom hwf => ?_, fun bs junk hbs => ?_, fun s hq hwf => (execInit_refused_iff hq hwf).mpr⟩
  · rw [romWellFormed_eq_isSome hwf, Option.isSome_iff_exists]
  · rw [romWellFormed_eq_isSome (Memory.wf_ofBytes bs), Option.isSome_iff_exists] at hbs
    obtain ⟨ops, hops⟩ := hbs
    have hjunk := tableExpand_append junk hops
    exact ⟨by rw [romWellFormed_eq_isSome (Memory.wf_ofBytes _), hjunk]; rfl, hjunk.trans hops.symm⟩

/-- Settles O48: `tableExpand_tableImage`, with each record's micro-ops written out. -/
theorem tablesOfRecordsExpandInOrder : Obligations.TablesOfRecordsExpandInOrder := by
  unfold Obligations.TablesOfRecordsExpandInOrder
  intro rs hlen hrs
  have hexpand := tableExpand_tableImage hlen hrs
  have hops (r : Record) :
      recordOps r = frame false r.cmd ++ r.args.flatMap (frame true) ++ delayOps r.delay := by
    rw [recordOps]
    cases r.delay <;> rfl
  refine ⟨by rw [romWellFormed_eq_isSome (Memory.wf_ofBytes _), hexpand]; rfl, ?_⟩
  exact hexpand.trans (congrArg (fun f => some (rs.flatMap f)) (funext hops))

/-! ### The one stop of the machine -/

/-- The only request that is refused is INIT, by an idle block (log 8). -/
theorem exec_request_refused {i : Instr} {s : State} {r : Refusal} (hi : i.isRequest = true)
    (h : exec i s = .refused r) :
    i = .init ∧ s.q = [] ∧ execInit s = .refused .tableIllFormed ∧ r = .tableIllFormed := by
  by_cases hinit : i = .init
  · subst hinit
    change execInit s = .refused r at h
    rcases execInit_cases s with ⟨-, e⟩ | ⟨hq, e⟩ | ⟨-, ops, tp, -, e⟩
    · exact nomatch e.symm.trans h
    · exact ⟨rfl, hq, e, (Host.Outcome.refused.inj (e.symm.trans h)).symm⟩
    · exact nomatch e.symm.trans h
  · obtain ⟨effect, hexec⟩ := exec_eq_acceptRequest hi hinit s
    exact nomatch hexec.symm.trans h

/-- A step is refused only when the host offers an INIT that is refused. -/
theorem step_refused {s : State} {r : Refusal} (h : step s = .refused r) :
    Offers s .init ∧ r = .tableIllFormed ∧
      ∃ rest, execInit { afterTurnTaken s with port := rest } = .refused .tableIllFormed := by
  have hturn := h
  rw [step_eq] at hturn
  cases hm : mover s with
  | block | tickSource | resetInput =>
    rw [hm] at hturn
    exact nomatch hturn
  | host =>
    rw [hm] at hturn
    by_cases hq : s.q = []
    · rw [step_of_host_idle hm hq, offerNext] at h
      split at h
      · next i rest hd =>
        obtain ⟨rfl, -, hrefused, hr⟩ := exec_request_refused (isRequest_of_decodeRequest hd) h
        exact ⟨⟨hm, hq, rest, hd⟩, hr, rest, hrefused⟩
      · exact nomatch h
      · split at h <;> exact nomatch h
    · have hheld := hostTurn_of_busy (s := afterTurnTaken s) hq
      exact nomatch hheld.symm.trans hturn

/-- Settles O27: the type of faults is empty, `step_refused` names the one refusal, and
`execInit_refused_iff` says of which tables it is. -/
theorem onlyIllFormedTableStops : Obligations.OnlyIllFormedTableStops := by
  unfold Obligations.OnlyIllFormedTableStops
  refine fun s => ⟨nofun, fun r h => ?_, fun hwf hrom ho => ?_⟩
  · obtain ⟨ho, hr, rest, hrefused⟩ := step_refused h
    exact ⟨hr, ho, fun hwf => (execInit_refused_iff (s := { afterTurnTaken s with port := rest }) ho.2.1
      hwf).mp hrefused⟩
  · obtain ⟨-, rest, -, hstep⟩ := step_of_offers ho
    exact hstep.trans ((execInit_refused_iff (s := { afterTurnTaken s with port := rest }) ho.2.1 hwf).mpr
      hrom)

end Sys2Proof.Machine
end

section
/-! SUPPORT. The obligations about runs with fair turns (`40_sequencer.md` section 5): what is in the queue
completes, and the requests at the port are carried out one after the other. -/

namespace Sys2Proof.Machine

/-! ### The queue completes -/

/-- The state in which the begun wait at the head of the queue has ended, with `ops` after it. -/
def afterWait (ops : List MicroOp) (s : State) : State :=
  { s with q := ops, dly := 0, wact := false, traceRev := (waitTail s.dly.toNat).reverse ++ s.traceRev }

theorem held_of_wait {s : State} {n : WaitMs} {ops : List MicroOp} (hq : s.q = .wait n :: ops) :
    s.held = (s.wact && s.dly != 0) := by
  simp only [State.held, hq]

theorem held_of_not_begun {s : State} (hw : s.wact = false) : s.held = false := by
  rw [State.held]
  split
  · rw [hw, Bool.false_and]
  · rfl

/-- A begun wait takes its ticks and one Perform that ends it (rules R106 and R107). -/
theorem runFor_begun_wait {s : State} {n : WaitMs} {ops : List MicroOp} (hs : s.sched = [])
    (hq : s.q = .wait n :: ops) (hw : s.wact = true) :
    runFor (s.dly.toNat + 1) s = .next (afterWait ops s) := by
  have hbusy : s.q ≠ [] := by simp [hq]
  induction hk : s.dly.toNat generalizing s with
  | zero =>
    have hd : s.dly = 0 := BitVec.eq_of_toNat_eq hk
    have hheld : s.held = false := by simp [held_of_wait hq, hd]
    have hend : perform s = afterWait ops s := by
      rw [perform_of_wait_counted hq hw hd, afterWait, hk, ← hd]
      rfl
    rw [runFor_succ_of_next (step_of_fair_busy hs hbusy hheld), hend, runFor_zero]
  | succ k ih =>
    have hd : s.dly ≠ 0 := by
      intro hd
      simp [hd] at hk
    have hheld : s.held = true := by rw [held_of_wait hq, hw, bne_iff_ne.mpr hd]; rfl
    have hleft : (tick s).dly.toNat = k := by rw [tick_dly_toNat hw hd, hk]; rfl
    have htick : tick s = { s with dly := s.dly - 1 }.emit .tick := if_pos ⟨hw, hd⟩
    have hend : afterWait ops (tick s) = afterWait ops s := by
      rw [afterWait, afterWait, hleft, hk, waitTail_of_pos (Nat.succ_pos k), htick]
      simp
    rw [runFor_succ_of_next (step_of_fair_held hs hbusy hheld),
      ih (by simp [hs]) (by simp [hq]) (by simp [hw]) (by simp [hq]) hleft, hend]

theorem completed_of_idle {s : State} (hq : s.q = []) : completed s = s := by
  cases s
  simp only at hq
  subst hq
  rfl

/-- The state in which the head `op` of the queue has been performed to its end, with `ops` after it. -/
def performed (op : MicroOp) (ops : List MicroOp) (s : State) : State :=
  { s with
    lines := linesAfter [op] s.lines
    ps := psAfter [op] s.ps
    q := ops
    traceRev := (opEvents op).reverse ++ s.traceRev }

/-- The head of the queue takes its own steps (rule R320). -/
theorem runFor_head {s : State} {op : MicroOp} {ops : List MicroOp} (hs : s.sched = [])
    (hw : s.wact = false) (hd : s.dly = 0) (hq : s.q = op :: ops) :
    runFor (opSteps [op]) s = .next (performed op ops s) := by
  have hstep : step s = .next (perform s) :=
    step_of_fair_busy hs (by simp [hq]) (held_of_not_begun hw)
  cases op with
  | setLine l b =>
    rw [opSteps, opSteps, Nat.add_comm, runFor_succ_of_next hstep, perform_of_setLine hq]
    rfl
  | endInit =>
    rw [opSteps, opSteps, Nat.add_comm, runFor_succ_of_next hstep, perform_of_endInit hq]
    rfl
  | wait n =>
    have hbegin := perform_of_wait_not_begun hq hw
    have hleft : (perform s).dly.toNat = n.val := by simpa [hbegin] using toNat_ofNat_waitMs n
    have hrun := runFor_begun_wait (s := perform s) (n := n) (ops := ops) (by simp [hs])
      (by simp [hbegin, hq]) (by simp [hbegin])
    have hend : afterWait ops (perform s) = performed (.wait n) ops s := by
      rw [afterWait, hleft, hbegin]
      simp [performed, linesAfter, psAfter, opEvents, hw, hd]
    have hsteps : opSteps [.wait n] = n.val + 1 + 1 := by
      rw [opSteps, opSteps]
      omega
    rw [hsteps, runFor_succ_of_next hstep, ← hleft, hrun, hend]

/-- Once the head of the queue has been performed the same is left to be completed (rule R110). -/
theorem completed_performed {s : State} {op : MicroOp} {ops : List MicroOp} (hq : s.q = op :: ops) :
    completed (performed op ops s) = completed s := by
  cases op <;> simp [completed, performed, hq, runEvents_cons, linesAfter, psAfter]

theorem opSteps_cons (op : MicroOp) (ops : List MicroOp) :
    opSteps (op :: ops) = opSteps [op] + opSteps ops := by
  cases op <;> simp [opSteps]

/-- A queue in which no wait has begun completes in the steps that its micro-ops take (rule R320). -/
theorem runFor_queue {s : State} (hs : s.sched = []) (hw : s.wact = false) (hd : s.dly = 0) :
    runFor (opSteps s.q) s = .next (completed s) := by
  induction hq : s.q generalizing s with
  | nil =>
    rw [completed_of_idle hq]
    rfl
  | cons op ops ih =>
    rw [opSteps_cons, runFor_add (runFor_head hs hw hd hq), ← completed_performed hq]
    exact ih hs hw hd rfl

/-- Settles O37: `runFor_queue`, after the begun wait's end where there is one. -/
theorem everyQueueCompletes : Obligations.EveryQueueCompletes := by
  unfold Obligations.EveryQueueCompletes
  refine ⟨fun s => runFor_queue, fun s n ops hs hw hq => ?_⟩
  rw [runFor_add (runFor_begun_wait hs hq hw)]
  exact runFor_queue (s := afterWait ops s) hs rfl rfl

/-! ### The requests at the port are carried out -/

/-- What every step keeps, every run keeps. -/
theorem runFor_keeps {P : State → Prop} (hP : ∀ s t, P s → step s = .next t → P t) {k : Nat} {s t : State}
    (hs : P s) (h : runFor k s = .next t) : P t := by
  induction k generalizing s with
  | zero =>
    obtain rfl := Host.Outcome.next.inj h
    exact hs
  | succ k ih =>
    rw [runFor] at h
    cases hstep : step s with
    | next u =>
      rw [hstep] at h
      exact ih (hP s u hs hstep) h
    | fault r => exact nomatch r
    | refused r =>
      rw [hstep] at h
      exact nomatch h

theorem trace_completed (s : State) : (completed s).trace = s.trace ++ runEvents s.q := by
  simp [completed, State.trace]

theorem psAfter_ready (ops : List MicroOp) : psAfter ops .ready = .ready := by
  induction ops with
  | nil => rfl
  | cons op ops ih => cases op <;> exact ih

theorem psAfter_append_endInit (ops : List MicroOp) (p : ProtocolState) :
    psAfter (ops ++ [.endInit]) p = .ready := by
  induction ops generalizing p with
  | nil => rfl
  | cons op ops ih => cases op <;> exact ih _

/-- Once the queue is performed the block is READY, unless it was in UNINIT (rule R112). -/
theorem psAfter_of_phaseInv {p : ProtocolState} {q : List MicroOp} (h : PhaseInv p q) (hp : p ≠ .uninit) :
    psAfter q p = .ready := by
  cases p with
  | uninit => exact absurd rfl hp
  | initializing =>
    obtain ⟨ops, rfl, -⟩ := h
    exact psAfter_append_endInit ops _
  | ready => exact psAfter_ready q

/-- An idle block with a well-formed table, fair turns, and a host whose only work stands at the port. -/
structure Serving (s : State) : Prop where
  inv : MachineInv s
  idle : s.q = []
  fair : s.sched = []
  noCalls : s.calls = []
  table : romWellFormed s.cfg.rom = true

/-- With a well-formed table an idle block refuses no request (rule R77). -/
theorem exec_request_next {i : Instr} {s : State} (hi : i.isRequest = true) (hwf : s.cfg.rom.wf = true)
    (htable : romWellFormed s.cfg.rom = true) : ∃ t, exec i s = .next t := by
  cases h : exec i s with
  | next t => exact ⟨t, rfl⟩
  | fault r => exact nomatch r
  | refused r =>
    obtain ⟨-, hq, hrefused, -⟩ := exec_request_refused hi h
    rw [execInit_refused_iff hq hwf, htable] at hrefused
    exact nomatch hrefused

/-- With fair turns an idle block executes the request at the front of the port (rules R101 and R115). -/
theorem step_of_fair_request {s : State} {i : Instr} {rest : List Byte} (hs : s.sched = [])
    (hq : s.q = []) (hi : i.isRequest = true) (hport : s.port = encode i ++ rest) :
    step s = exec i { s with port := rest } := by
  have hidle : ¬ s.busy = true := by simp [hq]
  have hd : decodeRequest s.port = .ok (i, rest) := by rw [hport, decodeRequest_encode hi]
  rw [step_of_fair_idle hs hq, hostTurn, if_neg hidle, offerNext_of_decodeRequest hd]

/-- The request at the front of the port is accepted and performed to its end, after which the block is
READY and serves what is left at the port. -/
theorem Serving.serve {s : State} {i : Instr} {rest : List Byte} (h : Serving s) (hi : i.isRequest = true)
    (hacc : s.ps ≠ .uninit ∨ i = .init) (hport : s.port = encode i ++ rest) :
    ∃ t, exec i { s with port := rest } = .next t ∧ runFor (opSteps t.q + 1) s = .next (completed t) ∧
      Serving (completed t) ∧ (completed t).ps = .ready ∧ (completed t).port = rest ∧
      (completed t).cfg = s.cfg := by
  obtain ⟨t, he⟩ := exec_request_next (s := { s with port := rest }) hi h.inv.rom h.table
  obtain ⟨-, -, hwact, hrest, hcalls, hsched, -⟩ := exec_request_frame hi he
  have hcfg := exec_request_cfg hi he
  have hinv : MachineInv t := exec_request_machineInv hi he { h.inv with }
  have hps : t.ps ≠ .uninit := by
    obtain ⟨hsame, hinit⟩ := exec_request_ps hi he
    by_cases hi' : i = .init
    · simp [hinit hi' h.idle]
    · rw [hsame hi']
      exact hacc.resolve_right hi'
  have hw : t.wact = false := hwact.trans (h.inv.wact_eq_false_of_idle h.idle)
  have hd : t.dly = 0 := hinv.notWaiting hw
  have hrun : runFor (opSteps t.q + 1) s = .next (completed t) := by
    rw [runFor_succ_of_next ((step_of_fair_request h.fair h.idle hi hport).trans he)]
    exact runFor_queue (hsched.trans h.fair) hw hd
  refine ⟨t, he, hrun, ?_, psAfter_of_phaseInv hinv.phase hps, hrest, hcfg⟩
  exact {
    inv := runFor_keeps (fun _ _ => step_machineInv) h.inv hrun
    idle := rfl
    fair := hsched.trans h.fair
    noCalls := hcalls.trans h.noCalls
    table := (congrArg (fun c : Config => romWellFormed c.rom) hcfg).trans h.table }

/-- What INIT puts in an idle block's queue is its expansion (rule R160). -/
theorem exec_init_expansion {s t : State} {ops : List MicroOp} (hq : s.q = []) (hwf : s.cfg.rom.wf = true)
    (hops : expandInit s.cfg = some ops) (he : exec .init s = .next t) :
    t.q = ops ∧ t.trace = s.trace ++ [.accept [0x06]] := by
  rw [expandInit] at hops
  split at hops
  · exact nomatch hops
  · next table htable =>
    obtain ⟨tp, hexec⟩ := execInit_of_tableExpand hq hwf htable
    obtain rfl := Host.Outcome.next.inj (hexec.symm.trans he)
    exact ⟨Option.some.inj hops, by simp [State.trace, encode]⟩

theorem expandInit_of_romWellFormed {c : Config} (hwf : c.rom.wf = true)
    (h : romWellFormed c.rom = true) : ∃ ops, expandInit c = some ops := by
  rw [romWellFormed_eq_isSome hwf, Option.isSome_iff_exists] at h
  obtain ⟨table, htable⟩ := h
  exact ⟨_, by simp only [expandInit, htable]; rfl⟩

/-- An INIT at the port runs to its end, and leaves its acceptance and the events of its expansion. -/
theorem Serving.serve_init {s : State} {rest : List Byte} {ops : List MicroOp} (h : Serving s)
    (hport : s.port = 0x06 :: rest) (hops : expandInit s.cfg = some ops) :
    ∃ k u, runFor k s = .next u ∧ Serving u ∧ u.ps = .ready ∧ u.port = rest ∧ u.cfg = s.cfg ∧
      u.trace = s.trace ++ (.accept [0x06] :: runEvents ops) := by
  obtain ⟨t, he, hrun, hserving, hps, hrest, hcfg⟩ := h.serve (i := .init) rfl (.inr rfl) hport
  obtain ⟨hq, htrace⟩ := exec_init_expansion (s := { s with port := rest }) h.idle h.inv.rom hops he
  refine ⟨_, _, hrun, hserving, hps, hrest, hcfg, ?_⟩
  rw [trace_completed, hq, htrace, List.append_assoc]
  rfl

/-- Settles O38: `Serving.serve_init`, twice. -/
theorem initTwiceGivesSameEvents : Obligations.InitTwiceGivesSameEvents := by
  unfold Obligations.InitTwiceGivesSameEvents
  intro s hinv hq hsched hcalls hport htable
  obtain ⟨ops, hops⟩ := expandInit_of_romWellFormed hinv.rom htable
  have h : Serving s := ⟨hinv, hq, hsched, hcalls, htable⟩
  obtain ⟨j, u, hrun, hu, -, hport', hcfg, htrace⟩ := h.serve_init hport hops
  obtain ⟨k, t, hrun', ht, hps, hport'', -, htrace'⟩ := hu.serve_init hport' (hcfg ▸ hops)
  exact ⟨ops, j + k, t, hops, (runFor_add hrun).trans hrun', ⟨ht.idle, hport'', ht.noCalls⟩, hps,
    by rw [htrace', htrace]⟩

/-- A block that serves requests in READY carries out all of them, and the receiver recovers their frames. -/
theorem Serving.serve_all {s : State} {is : List Instr} (h : Serving s) (hsync : ReceiverInSync s)
    (hps : s.ps = .ready) (hi : ∀ i ∈ is, i.isRequest = true) (hport : s.port = requestBytes is) :
    ∃ k t, runFor k s = .next t ∧ Quiescent t ∧ t.ps = .ready ∧
      recoveredFrames t.trace = recoveredFrames s.trace ++ is.flatMap (busFrames s.cfg) := by
  induction is generalizing s with
  | nil => exact ⟨0, s, rfl, ⟨h.idle, hport, h.noCalls⟩, hps, by simp⟩
  | cons i is ih =>
    have hi' : i.isRequest = true := hi i List.mem_cons_self
    have hacc : s.ps ≠ .uninit ∨ i = .init := .inl (by simp [hps])
    obtain ⟨t, he, hrun, hserving, hready, hrest, hcfg⟩ := h.serve hi' hacc hport
    have hframes : recoveredFrames (completed t).trace = recoveredFrames s.trace ++ busFrames s.cfg i := by
      rw [trace_completed]
      exact framesAreRecoveredExactly { s with port := requestBytes is } t i { h.inv with } hsync h.idle hi'
        hacc he
    have hsync' : ReceiverInSync (completed t) :=
      (runFor_keeps (P := fun s => MachineInv s ∧ ReceiverInSync s)
        (fun _ _ hs hstep => ⟨step_machineInv hs.1 hstep, step_inSync hs.1 hs.2 hstep⟩)
        ⟨h.inv, hsync⟩ hrun).2
    obtain ⟨k, u, hrun', hquiet, hps', hframes'⟩ :=
      ih hserving hsync' hready (fun j hj => hi j (List.mem_cons_of_mem _ hj)) hrest
    refine ⟨_, u, (runFor_add hrun).trans hrun', hquiet, hps', ?_⟩
    rw [hframes', hframes, hcfg, List.flatMap_cons, List.append_assoc]

/-- Settles O42: `Serving.serve_all`. -/
theorem requestSequencesReachTheReceiver : Obligations.RequestSequencesReachTheReceiver := by
  unfold Obligations.RequestSequencesReachTheReceiver
  intro s is hinv hsync hps hq hsched hcalls htable hi hport
  exact Serving.serve_all ⟨hinv, hq, hsched, hcalls, htable⟩ hsync hps hi hport

end Sys2Proof.Machine
end

section
/-! SUPPORT. The obligations about what the host reads and does: the layout of STATUS (`10_state.md` section 6)
and the calls of its primitives (`45_host.md` section 1). -/

namespace Sys2Proof.Machine

/-! ### STATUS -/

/-- The fields of rule R32's concatenation, read back at their bits. -/
theorem status_fields (win ps : BitVec 2) (notinit illreq busy : Bool) :
    let status : Byte := 0#1 ++ win ++ BitVec.ofBool notinit ++ BitVec.ofBool illreq ++
      BitVec.ofBool busy ++ ps
    status.extractLsb' 0 2 = ps ∧ status.getLsbD 2 = busy ∧ status.getLsbD 3 = illreq ∧
      status.getLsbD 4 = notinit ∧ status.extractLsb' 5 2 = win ∧ status.getLsbD 7 = false := by
  decide +revert

/-- Settles O55: `status_fields` of the codes of `PS` and `WIN`. -/
theorem statusLayout : Obligations.StatusLayout := by
  unfold Obligations.StatusLayout
  intro s
  obtain ⟨hps, hbusy, hillreq, hnotinit, hwin, htop⟩ :=
    status_fields s.win.code s.ps.code s.fNotinit s.fIllreq s.busy
  change s.status.extractLsb' 0 2 = s.ps.code at hps
  change s.status.extractLsb' 5 2 = s.win.code at hwin
  refine ⟨?_, ?_, hillreq, hnotinit, ?_, htop⟩
  · rw [hps]
    cases s.ps <;> rfl
  · rw [← State.busy_eq_true_iff]
    exact iff_of_eq (congrArg (· = true) hbusy)
  · rw [hwin]
    cases s.win <;> rfl

/-! ### Taking a call up -/

/-- With nothing at the port the host of an idle block takes up its next call (rule R230). -/
theorem step_of_host_call {s : State} (hm : mover s = .host) (hq : s.q = []) (hport : s.port = []) :
    step s = .next (takeCall (afterTurnTaken s)) := by
  rw [step_of_host_idle hm hq]
  simp [offerNext, hport, decodeRequest]

section
variable {s : State} {call : HostCall} {cs : List HostCall}

/-- A primitive's requests are computed from the viewport of the moment (rule R230). -/
theorem takeCall_of_primitive (hcalls : s.calls = call :: cs) (hraw : ∀ bs, call ≠ .raw bs)
    (hinit : call ≠ .init) (hawait : call ≠ .awaitReady) :
    takeCall s = { s with
      port := (callRequests s.cfg.toParams s.vpW s.vpH call).flatMap encode, calls := cs } := by
  cases call with
  | raw bs => exact absurd rfl (hraw bs)
  | init => exact absurd rfl hinit
  | awaitReady => exact absurd rfl hawait
  | _ =>
    simp only [takeCall, hcalls]
    rfl

theorem takeCall_of_raw {bs : List Byte} (hcalls : s.calls = .raw bs :: cs) :
    takeCall s = { s with port := bs, calls := cs } := by
  simp only [takeCall, hcalls]

/-- init() offers INIT and then holds (rule R239). -/
theorem takeCall_of_init (hcalls : s.calls = .init :: cs) :
    takeCall s = { s with port := [0x06], calls := .awaitReady :: cs } := by
  simp only [takeCall, hcalls]
  rfl

/-- The hold of init() ends in READY (rule R239). -/
theorem takeCall_of_awaitReady (hcalls : s.calls = .awaitReady :: cs) :
    takeCall s = if s.ps = .ready then { s with calls := cs } else s := by
  simp only [takeCall, hcalls]

end

/-! ### Which steps change the calls -/

/-- What stands at the port is offered before any call is taken up (rule R230). -/
theorem offerNext_calls_of_port {s t : State} (hport : s.port ≠ []) (hq : s.q = [])
    (h : offerNext s = .next t) : t.calls = s.calls := by
  rw [offerNext] at h
  split at h
  · next i rest hd =>
    obtain ⟨-, -, -, -, hcalls, -⟩ := exec_request_frame (isRequest_of_decodeRequest hd) h
    exact hcalls
  · next b hd =>
    rw [rejectOpcode_of_idle b (by exact hq)] at h
    obtain rfl := Host.Outcome.next.inj h
    rfl
  · rw [if_neg hport] at h
    obtain rfl := Host.Outcome.next.inj h
    rfl

/-- The calls change only when the host of an idle block has nothing at the port. -/
theorem step_calls {s t : State} (h : step s = .next t) :
    t.calls = s.calls ∨ (mover s = .host ∧ s.q = [] ∧ s.port = []) := by
  by_cases hidle : mover s = .host ∧ s.q = []
  · obtain ⟨hm, hq⟩ := hidle
    by_cases hport : s.port = []
    · exact .inr ⟨hm, hq, hport⟩
    · rw [step_of_host_idle hm hq] at h
      exact .inl (offerNext_calls_of_port (s := afterTurnTaken s) hport hq h)
  · rcases step_cases h with ⟨-, rfl⟩ | ⟨-, rfl⟩ | ⟨-, rfl⟩ | ⟨-, -, rfl⟩ | ⟨hm, hq, -⟩ | ⟨hm, hq, -⟩ |
      ⟨hm, hq, -⟩
    case inr.inr.inr.inr.inl => exact absurd ⟨hm, hq⟩ hidle
    case inr.inr.inr.inr.inr.inl => exact absurd ⟨hm, hq⟩ hidle
    case inr.inr.inr.inr.inr.inr => exact absurd ⟨hm, hq⟩ hidle
    all_goals exact .inl (by simp)

/-- setRotation offers the rotation modulo 4 (rule R238). -/
theorem setRotationRequests_eq (r : Int) :
    ∃ b : Byte, (b.toNat : Int) = r % 4 ∧ setRotationRequests r = [.setrot b] :=
  ⟨byteOfInt (r % 4), toNat_byteOfInt (by omega) (by omega), rfl⟩

/-- Settles O60: the equations of `takeCall`, `step_calls`, and the requests of each primitive. -/
theorem hostComputesCallFromViewport : Obligations.HostComputesCallFromViewport := by
  unfold Obligations.HostComputesCallFromViewport
  refine ⟨fun s call cs hm hq hport hcalls => ?_, fun s t h => (step_calls h).resolve_left, fun p vpW vpH =>
    ⟨fun _ => rfl, setRotationRequests_eq, fun _ _ _ => rfl, fun _ _ _ _ => rfl, fun _ _ _ _ => rfl,
      fun _ _ _ _ _ => rfl, fun _ => rfl⟩⟩
  rw [step_of_host_call hm hq hport]
  have hcalls' : (afterTurnTaken s).calls = call :: cs := hcalls
  refine ⟨fun hraw hinit hawait => ?_, fun bs hraw => ?_, fun hinit => ?_, fun hawait hps => ?_,
    fun hawait hps => ?_⟩
  · exact congrArg _ (takeCall_of_primitive hcalls' hraw hinit hawait)
  · exact congrArg _ (takeCall_of_raw (hraw ▸ hcalls'))
  · exact congrArg _ (takeCall_of_init (hinit ▸ hcalls'))
  · exact congrArg _ ((takeCall_of_awaitReady (hawait ▸ hcalls')).trans (if_pos hps))
  · exact congrArg _ ((takeCall_of_awaitReady (hawait ▸ hcalls')).trans (if_neg hps))

end Sys2Proof.Machine
end
